-- ==== Sys2Proof/Word.lean ====
section
/-! DEFINITION. Words: every register and every memory word is a 16-bit pattern (00_scope R2, R5). -/

namespace Sys2Proof

/-- A word, 16 bits (R2). `toNat` is its unsigned reading, `toInt` the two's complement reading `s16` (R5). -/
abbrev Word := BitVec 16

/-- An 8-bit immediate field (30_encoding R96). -/
abbrev Byte := BitVec 8

end Sys2Proof
end

