-- ==== Sys2Proof/Syntax.lean ====
section
/-! DEFINITION. The instructions: one constructor per row of spec/opcode_table.json (30_encoding R95, R97, R98). -/

namespace Sys2Proof

/-- A register number R0 to R15 (10_state R21). -/
abbrev Reg := Fin 16

/-- A register number R0 to R7, all that a 3-bit field can name (30_encoding R93). -/
abbrev LowReg := Fin 8

/-- A bit number of a register, 0 to 15 (30_encoding R96). -/
abbrev BitNo := Fin 16

/-- The eight execution conditions, in the order of their codes 000 to 111 (40_execution_model R122). -/
inductive Cond where
  | al
  | eq
  | ne
  | cs
  | cc
  | xs
  | xc
  | no
deriving DecidableEq, Repr

/-- The f bit: 0 is `nf`, 1 is `fl` (40_execution_model R129). -/
inductive FlagUpdate where
  | nf
  | fl
deriving DecidableEq, Repr

/-- Every instruction carries its condition and its f bit (30_encoding R90). `x` is the field in the least significant bits. -/
inductive Instr where
  /-- `mov Rx, Ry` (R160). -/
  | movReg (c : Cond) (f : FlagUpdate) (x y : Reg)
  /-- `mov Rx, [Ry]` (R161). -/
  | load (c : Cond) (f : FlagUpdate) (x y : Reg)
  /-- `mov [Rx], Ry` (R162). -/
  | store (c : Cond) (f : FlagUpdate) (x y : Reg)
  /-- `mov X, Rx:Imm4` (R170). -/
  | movXBit (c : Cond) (f : FlagUpdate) (x : Reg) (b : BitNo)
  /-- opcode 0100, not listed by the source; `p` is its eight parameter bits (R97). -/
  | reservedOp4 (c : Cond) (f : FlagUpdate) (p : Byte)
  /-- `mov Rx:Imm4, X` (R171). -/
  | movBitX (c : Cond) (f : FlagUpdate) (x : Reg) (b : BitNo)
  /-- `mov Rx:Imm4, 0` (R172). -/
  | clearBit (c : Cond) (f : FlagUpdate) (x : Reg) (b : BitNo)
  /-- `mov Rx:Imm4, 1` (R173). -/
  | setBit (c : Cond) (f : FlagUpdate) (x : Reg) (b : BitNo)
  /-- `not Rx:imm4` (R174). -/
  | notBit (c : Cond) (f : FlagUpdate) (x : Reg) (b : BitNo)
  /-- `mov low R0, imm8` (R190). -/
  | movLow (c : Cond) (f : FlagUpdate) (imm : Byte)
  /-- `mov high R0, imm8` (R191). -/
  | movHigh (c : Cond) (f : FlagUpdate) (imm : Byte)
  /-- `add R15, simm8` (R192). -/
  | addPc (c : Cond) (f : FlagUpdate) (simm : Byte)
  /-- `add Rx, Ry` (R200). -/
  | addReg (c : Cond) (f : FlagUpdate) (x y : LowReg)
  /-- `sub Rx, Ry` (R201). -/
  | subReg (c : Cond) (f : FlagUpdate) (x y : LowReg)
  /-- `and Rx, Ry` (R202). -/
  | andReg (c : Cond) (f : FlagUpdate) (x y : LowReg)
  /-- `or Rx, Ry` (R203). -/
  | orReg (c : Cond) (f : FlagUpdate) (x y : LowReg)
  /-- `xor Rx, Ry` (R204). -/
  | xorReg (c : Cond) (f : FlagUpdate) (x y : LowReg)
  /-- `shl Rx, Ry` (R211). -/
  | shlReg (c : Cond) (f : FlagUpdate) (x y : LowReg)
  /-- `shr Rx, Ry` (R212). -/
  | shrReg (c : Cond) (f : FlagUpdate) (x y : LowReg)
  /-- `sar Rx, Ry` (R213). -/
  | sarReg (c : Cond) (f : FlagUpdate) (x y : LowReg)
  /-- `mul Rx, Ry` (R220). -/
  | mulReg (c : Cond) (f : FlagUpdate) (x y : LowReg)
  /-- `div Rx, Ry` (R222). -/
  | divReg (c : Cond) (f : FlagUpdate) (x y : LowReg)
  /-- `imul Rx, Ry` (R221). -/
  | imulReg (c : Cond) (f : FlagUpdate) (x y : LowReg)
  /-- `idiv Rx, Ry` (R223). -/
  | idivReg (c : Cond) (f : FlagUpdate) (x y : LowReg)
  /-- `shl Rx, imm3`; `i` is the field iii, the count less one (R214, R96). -/
  | shlImm (c : Cond) (f : FlagUpdate) (x : LowReg) (i : Fin 8)
  /-- `shr Rx, imm3` (R215). -/
  | shrImm (c : Cond) (f : FlagUpdate) (x : LowReg) (i : Fin 8)
  /-- `sar Rx, imm3` (R216). -/
  | sarImm (c : Cond) (f : FlagUpdate) (x : LowReg) (i : Fin 8)
  /-- `add Rx, 1` with Rx = R15, reserved (R98). -/
  | reservedIncPc (c : Cond) (f : FlagUpdate)
  /-- `add Rx, 1`, x not 15 (R230). -/
  | inc (c : Cond) (f : FlagUpdate) (x : Reg)
  /-- `sub Rx, 1` (R231). -/
  | dec (c : Cond) (f : FlagUpdate) (x : Reg)
  /-- `not Rx` (R232). -/
  | notReg (c : Cond) (f : FlagUpdate) (x : Reg)
  /-- `neg Rx` (R233). -/
  | negReg (c : Cond) (f : FlagUpdate) (x : Reg)
deriving DecidableEq, Repr

end Sys2Proof
end

