-- ==== Sys2Proof/WellFormed.lean ====
section
/-! DEFINITION. Which terms of `Instr` stand for a word: all but `add Rx, 1` with x = 15, whose words are the row
`reservedIncPc` (30_encoding R98). Every other field is exactly as wide as its type. -/

namespace Sys2Proof

/-- The term stands for a word of its own row. -/
def Instr.wellFormed : Instr → Bool
  | .inc _ _ x => decide (x ≠ 15)
  | _ => true

/-- The reserved rows, which the spec gives no meaning (30_encoding R97, R98). -/
def Instr.isReserved : Instr → Bool
  | .reservedOp4 _ _ _ => true
  | .reservedIncPc _ _ => true
  | _ => false

/-- The condition field of an instruction (30_encoding R91). -/
def Instr.cond : Instr → Cond
  | .movReg c _ _ _ => c
  | .load c _ _ _ => c
  | .store c _ _ _ => c
  | .movXBit c _ _ _ => c
  | .reservedOp4 c _ _ => c
  | .movBitX c _ _ _ => c
  | .clearBit c _ _ _ => c
  | .setBit c _ _ _ => c
  | .notBit c _ _ _ => c
  | .movLow c _ _ => c
  | .movHigh c _ _ => c
  | .addPc c _ _ => c
  | .addReg c _ _ _ => c
  | .subReg c _ _ _ => c
  | .andReg c _ _ _ => c
  | .orReg c _ _ _ => c
  | .xorReg c _ _ _ => c
  | .shlReg c _ _ _ => c
  | .shrReg c _ _ _ => c
  | .sarReg c _ _ _ => c
  | .mulReg c _ _ _ => c
  | .divReg c _ _ _ => c
  | .imulReg c _ _ _ => c
  | .idivReg c _ _ _ => c
  | .shlImm c _ _ _ => c
  | .shrImm c _ _ _ => c
  | .sarImm c _ _ _ => c
  | .reservedIncPc c _ => c
  | .inc c _ _ => c
  | .dec c _ _ => c
  | .notReg c _ _ => c
  | .negReg c _ _ => c

/-- The f bit of an instruction (30_encoding R91). -/
def Instr.flagUpdate : Instr → FlagUpdate
  | .movReg _ f _ _ => f
  | .load _ f _ _ => f
  | .store _ f _ _ => f
  | .movXBit _ f _ _ => f
  | .reservedOp4 _ f _ => f
  | .movBitX _ f _ _ => f
  | .clearBit _ f _ _ => f
  | .setBit _ f _ _ => f
  | .notBit _ f _ _ => f
  | .movLow _ f _ => f
  | .movHigh _ f _ => f
  | .addPc _ f _ => f
  | .addReg _ f _ _ => f
  | .subReg _ f _ _ => f
  | .andReg _ f _ _ => f
  | .orReg _ f _ _ => f
  | .xorReg _ f _ _ => f
  | .shlReg _ f _ _ => f
  | .shrReg _ f _ _ => f
  | .sarReg _ f _ _ => f
  | .mulReg _ f _ _ => f
  | .divReg _ f _ _ => f
  | .imulReg _ f _ _ => f
  | .idivReg _ f _ _ => f
  | .shlImm _ f _ _ => f
  | .shrImm _ f _ _ => f
  | .sarImm _ f _ _ => f
  | .reservedIncPc _ f => f
  | .inc _ f _ => f
  | .dec _ f _ => f
  | .notReg _ f _ => f
  | .negReg _ f _ => f

/-- The row of 30_encoding R95 the instruction stands in: its number there, 0 for opcode 0100 (R97) and 31 for the
reserved form of row 27 (R98). -/
def Instr.row : Instr → Nat
  | .movReg _ _ _ _ => 1
  | .load _ _ _ _ => 2
  | .store _ _ _ _ => 3
  | .movXBit _ _ _ _ => 4
  | .reservedOp4 _ _ _ => 0
  | .movBitX _ _ _ _ => 5
  | .clearBit _ _ _ _ => 6
  | .setBit _ _ _ _ => 7
  | .notBit _ _ _ _ => 8
  | .movLow _ _ _ => 9
  | .movHigh _ _ _ => 10
  | .addPc _ _ _ => 11
  | .addReg _ _ _ _ => 12
  | .subReg _ _ _ _ => 13
  | .andReg _ _ _ _ => 14
  | .orReg _ _ _ _ => 15
  | .xorReg _ _ _ _ => 16
  | .shlReg _ _ _ _ => 17
  | .shrReg _ _ _ _ => 18
  | .sarReg _ _ _ _ => 19
  | .mulReg _ _ _ _ => 20
  | .divReg _ _ _ _ => 21
  | .imulReg _ _ _ _ => 22
  | .idivReg _ _ _ _ => 23
  | .shlImm _ _ _ _ => 24
  | .shrImm _ _ _ _ => 25
  | .sarImm _ _ _ _ => 26
  | .reservedIncPc _ _ => 31
  | .inc _ _ _ => 27
  | .dec _ _ _ => 28
  | .notReg _ _ _ => 29
  | .negReg _ _ _ => 30

end Sys2Proof
end

