-- ==== Sys2Proof/Decode.lean ====
section
/-! DEFINITION. Decoding a 16-bit instruction word by the prefix code of 30_encoding R94, and the encoder by the layouts
and codes of R92 and R95. -/

namespace Sys2Proof

/-- The condition of a code (40_execution_model R122). -/
def condOfCode (n : Nat) : Cond :=
  match n with
  | 0 => .al
  | 1 => .eq
  | 2 => .ne
  | 3 => .cs
  | 4 => .cc
  | 5 => .xs
  | 6 => .xc
  | _ => .no

/-- The 3-bit code of a condition (40_execution_model R122). -/
def condCode (c : Cond) : BitVec 3 :=
  match c with
  | .al => 0b000#3
  | .eq => 0b001#3
  | .ne => 0b010#3
  | .cs => 0b011#3
  | .cc => 0b100#3
  | .xs => 0b101#3
  | .xc => 0b110#3
  | .no => 0b111#3

/-- The f bit of a code (40_execution_model R129). -/
def flagOfBit (b : Bool) : FlagUpdate := if b then .fl else .nf

/-- The f bit, w[12] (40_execution_model R129). -/
def flagCode (f : FlagUpdate) : BitVec 1 :=
  match f with
  | .nf => 0#1
  | .fl => 1#1

/-- cond = w[15:13] (30_encoding R91). -/
def condField (w : Word) : Cond := condOfCode (w.extractLsb' 13 3).toNat

/-- f = w[12] (30_encoding R91). -/
def flagField (w : Word) : FlagUpdate := flagOfBit (w.getLsbD 12)

/-- op4 = w[11:8] (30_encoding R94). -/
def op4Field (w : Word) : Nat := (w.extractLsb' 8 4).toNat

/-- op6 = w[11:6] (30_encoding R94). -/
def op6Field (w : Word) : Nat := (w.extractLsb' 6 6).toNat

/-- op8 = w[11:4] (30_encoding R94). -/
def op8Field (w : Word) : Nat := (w.extractLsb' 4 8).toNat

/-- The 4-bit field w[3:0], x of the layouts RR4, BI4 and R4 (30_encoding R92). -/
def lowQuartet (w : Word) : Fin 16 := (w.extractLsb' 0 4).toFin

/-- The 4-bit field w[7:4], y of RR4 and imm4 of BI4 (30_encoding R92). -/
def highQuartet (w : Word) : Fin 16 := (w.extractLsb' 4 4).toFin

/-- The 3-bit field w[2:0], x of RR3 and RI3 (30_encoding R92). -/
def lowTriple (w : Word) : Fin 8 := (w.extractLsb' 0 3).toFin

/-- The 3-bit field w[5:3], y of RR3 and iii of RI3 (30_encoding R92). -/
def highTriple (w : Word) : Fin 8 := (w.extractLsb' 3 3).toFin

/-- The byte w[7:0] of U8 and S8 (30_encoding R92). -/
def byteField (w : Word) : Byte := w.extractLsb' 0 8

/-- The 8-bit codes, layout R4, the word being past the 6-bit codes (30_encoding R94, R95 rows 27 to 30). -/
def decodeOp8 (w : Word) : Instr :=
  match op8Field w with
  | 0b11111100 =>
    if lowQuartet w = 15 then .reservedIncPc (condField w) (flagField w)
    else .inc (condField w) (flagField w) (lowQuartet w)
  | 0b11111101 => .dec (condField w) (flagField w) (lowQuartet w)
  | 0b11111110 => .notReg (condField w) (flagField w) (lowQuartet w)
  | _ => .negReg (condField w) (flagField w) (lowQuartet w)

/-- The 6-bit codes, layouts RR3 and RI3, the word being past the 4-bit codes (30_encoding R94, R95 rows 12 to 26). -/
def decodeOp6 (w : Word) : Instr :=
  match op6Field w with
  | 0b110000 => .addReg (condField w) (flagField w) (lowTriple w) (highTriple w)
  | 0b110001 => .subReg (condField w) (flagField w) (lowTriple w) (highTriple w)
  | 0b110010 => .andReg (condField w) (flagField w) (lowTriple w) (highTriple w)
  | 0b110011 => .orReg (condField w) (flagField w) (lowTriple w) (highTriple w)
  | 0b110100 => .xorReg (condField w) (flagField w) (lowTriple w) (highTriple w)
  | 0b110101 => .shlReg (condField w) (flagField w) (lowTriple w) (highTriple w)
  | 0b110110 => .shrReg (condField w) (flagField w) (lowTriple w) (highTriple w)
  | 0b110111 => .sarReg (condField w) (flagField w) (lowTriple w) (highTriple w)
  | 0b111000 => .mulReg (condField w) (flagField w) (lowTriple w) (highTriple w)
  | 0b111001 => .divReg (condField w) (flagField w) (lowTriple w) (highTriple w)
  | 0b111010 => .imulReg (condField w) (flagField w) (lowTriple w) (highTriple w)
  | 0b111011 => .idivReg (condField w) (flagField w) (lowTriple w) (highTriple w)
  | 0b111100 => .shlImm (condField w) (flagField w) (lowTriple w) (highTriple w)
  | 0b111101 => .shrImm (condField w) (flagField w) (lowTriple w) (highTriple w)
  | 0b111110 => .sarImm (condField w) (flagField w) (lowTriple w) (highTriple w)
  | _ => decodeOp8 w

/-- The instruction a word encodes, total on all 65536 words (30_encoding R94, R95; reserved words by their row, R97, R98). -/
def decodeWord (w : Word) : Instr :=
  match op4Field w with
  | 0b0000 => .movReg (condField w) (flagField w) (lowQuartet w) (highQuartet w)
  | 0b0001 => .load (condField w) (flagField w) (lowQuartet w) (highQuartet w)
  | 0b0010 => .store (condField w) (flagField w) (lowQuartet w) (highQuartet w)
  | 0b0011 => .movXBit (condField w) (flagField w) (lowQuartet w) (highQuartet w)
  | 0b0100 => .reservedOp4 (condField w) (flagField w) (byteField w)
  | 0b0101 => .movBitX (condField w) (flagField w) (lowQuartet w) (highQuartet w)
  | 0b0110 => .clearBit (condField w) (flagField w) (lowQuartet w) (highQuartet w)
  | 0b0111 => .setBit (condField w) (flagField w) (lowQuartet w) (highQuartet w)
  | 0b1000 => .notBit (condField w) (flagField w) (lowQuartet w) (highQuartet w)
  | 0b1001 => .movLow (condField w) (flagField w) (byteField w)
  | 0b1010 => .movHigh (condField w) (flagField w) (byteField w)
  | 0b1011 => .addPc (condField w) (flagField w) (byteField w)
  | _ => decodeOp6 w

/-- Why a list of words holds no instruction at its front. -/
inductive DecodeError where
  /-- No word is left: an instruction is one word (30_encoding R90). -/
  | noWord
deriving DecidableEq, Repr

/-- The instruction at the front of a list of words and the words after it (30_encoding R90: one word each). -/
def decode : List Word → Except DecodeError (Instr × List Word)
  | [] => .error .noWord
  | w :: rest => .ok (decodeWord w, rest)

/-- Layouts RR4 and BI4: `ccc f oooo yyyy xxxx` (30_encoding R92). -/
def encodeRR4 (op : BitVec 4) (c : Cond) (f : FlagUpdate) (y x : Fin 16) : Word :=
  condCode c ++ flagCode f ++ op ++ BitVec.ofNat 4 y.val ++ BitVec.ofNat 4 x.val

/-- Layouts U8 and S8: `ccc f oooo iiii iiii` (30_encoding R92). -/
def encodeB8 (op : BitVec 4) (c : Cond) (f : FlagUpdate) (b : Byte) : Word :=
  condCode c ++ flagCode f ++ op ++ b

/-- Layouts RR3 and RI3: `ccc f oooooo yyy xxx` (30_encoding R92). -/
def encodeRR3 (op : BitVec 6) (c : Cond) (f : FlagUpdate) (y x : Fin 8) : Word :=
  condCode c ++ flagCode f ++ op ++ BitVec.ofNat 3 y.val ++ BitVec.ofNat 3 x.val

/-- Layout R4: `ccc f oooooooo xxxx` (30_encoding R92). -/
def encodeR4 (op : BitVec 8) (c : Cond) (f : FlagUpdate) (x : Fin 16) : Word :=
  condCode c ++ flagCode f ++ op ++ BitVec.ofNat 4 x.val

/-- The word of an instruction (30_encoding R92, R95). -/
def encode : Instr → Word
  | .movReg c f x y => encodeRR4 0b0000#4 c f y x
  | .load c f x y => encodeRR4 0b0001#4 c f y x
  | .store c f x y => encodeRR4 0b0010#4 c f y x
  | .movXBit c f x b => encodeRR4 0b0011#4 c f b x
  | .reservedOp4 c f p => encodeB8 0b0100#4 c f p
  | .movBitX c f x b => encodeRR4 0b0101#4 c f b x
  | .clearBit c f x b => encodeRR4 0b0110#4 c f b x
  | .setBit c f x b => encodeRR4 0b0111#4 c f b x
  | .notBit c f x b => encodeRR4 0b1000#4 c f b x
  | .movLow c f imm => encodeB8 0b1001#4 c f imm
  | .movHigh c f imm => encodeB8 0b1010#4 c f imm
  | .addPc c f simm => encodeB8 0b1011#4 c f simm
  | .addReg c f x y => encodeRR3 0b110000#6 c f y x
  | .subReg c f x y => encodeRR3 0b110001#6 c f y x
  | .andReg c f x y => encodeRR3 0b110010#6 c f y x
  | .orReg c f x y => encodeRR3 0b110011#6 c f y x
  | .xorReg c f x y => encodeRR3 0b110100#6 c f y x
  | .shlReg c f x y => encodeRR3 0b110101#6 c f y x
  | .shrReg c f x y => encodeRR3 0b110110#6 c f y x
  | .sarReg c f x y => encodeRR3 0b110111#6 c f y x
  | .mulReg c f x y => encodeRR3 0b111000#6 c f y x
  | .divReg c f x y => encodeRR3 0b111001#6 c f y x
  | .imulReg c f x y => encodeRR3 0b111010#6 c f y x
  | .idivReg c f x y => encodeRR3 0b111011#6 c f y x
  | .shlImm c f x i => encodeRR3 0b111100#6 c f i x
  | .shrImm c f x i => encodeRR3 0b111101#6 c f i x
  | .sarImm c f x i => encodeRR3 0b111110#6 c f i x
  | .reservedIncPc c f => encodeR4 0b11111100#8 c f 15
  | .inc c f x => encodeR4 0b11111100#8 c f x
  | .dec c f x => encodeR4 0b11111101#8 c f x
  | .notReg c f x => encodeR4 0b11111110#8 c f x
  | .negReg c f x => encodeR4 0b11111111#8 c f x

/-- One line of the opcode map: a word w is this row when `w and mask = pattern` (30_encoding R95). -/
structure OpcodeRow where
  number : Nat
  mask : Word
  pattern : Word
deriving DecidableEq, Repr

/-- The opcode map of 30_encoding R95 as masks and patterns, rows of 4-bit codes. -/
def opcodeMap4 : List OpcodeRow :=
  [⟨1, 0x0F00#16, 0x0000#16⟩, ⟨2, 0x0F00#16, 0x0100#16⟩, ⟨3, 0x0F00#16, 0x0200#16⟩, ⟨4, 0x0F00#16, 0x0300#16⟩,
   ⟨0, 0x0F00#16, 0x0400#16⟩, ⟨5, 0x0F00#16, 0x0500#16⟩, ⟨6, 0x0F00#16, 0x0600#16⟩, ⟨7, 0x0F00#16, 0x0700#16⟩,
   ⟨8, 0x0F00#16, 0x0800#16⟩, ⟨9, 0x0F00#16, 0x0900#16⟩, ⟨10, 0x0F00#16, 0x0A00#16⟩, ⟨11, 0x0F00#16, 0x0B00#16⟩]

/-- The opcode map of 30_encoding R95, rows of 6-bit codes. -/
def opcodeMap6 : List OpcodeRow :=
  [⟨12, 0x0FC0#16, 0x0C00#16⟩, ⟨13, 0x0FC0#16, 0x0C40#16⟩, ⟨14, 0x0FC0#16, 0x0C80#16⟩, ⟨15, 0x0FC0#16, 0x0CC0#16⟩,
   ⟨16, 0x0FC0#16, 0x0D00#16⟩, ⟨17, 0x0FC0#16, 0x0D40#16⟩, ⟨18, 0x0FC0#16, 0x0D80#16⟩, ⟨19, 0x0FC0#16, 0x0DC0#16⟩,
   ⟨20, 0x0FC0#16, 0x0E00#16⟩, ⟨21, 0x0FC0#16, 0x0E40#16⟩, ⟨22, 0x0FC0#16, 0x0E80#16⟩, ⟨23, 0x0FC0#16, 0x0EC0#16⟩,
   ⟨24, 0x0FC0#16, 0x0F00#16⟩, ⟨25, 0x0FC0#16, 0x0F40#16⟩, ⟨26, 0x0FC0#16, 0x0F80#16⟩]

/-- The opcode map of 30_encoding R95, rows of 8-bit codes. Row 27 stands here without its reserved words (R98),
which `reservedIncRow` gives. -/
def opcodeMap8 : List OpcodeRow :=
  [⟨27, 0x0FF0#16, 0x0FC0#16⟩, ⟨28, 0x0FF0#16, 0x0FD0#16⟩, ⟨29, 0x0FF0#16, 0x0FE0#16⟩, ⟨30, 0x0FF0#16, 0x0FF0#16⟩]

/-- The sixteen reserved words of row 27 (30_encoding R98), tested before row 27. -/
def reservedIncRow : OpcodeRow := ⟨31, 0x0FFF#16, 0x0FCF#16⟩

/-- Every line of the map, the reserved form of row 27 first (30_encoding R95, R97, R98). -/
def opcodeMap : List OpcodeRow := reservedIncRow :: (opcodeMap4 ++ (opcodeMap6 ++ opcodeMap8))

/-- The word lies in the row (30_encoding R95: `w and mask = match`). -/
def OpcodeRow.matchesWord (r : OpcodeRow) (w : Word) : Bool := decide (w &&& r.mask = r.pattern)

/-- The row of the first line of the map that a word matches. -/
def firstRow : List OpcodeRow → Word → Option Nat
  | [], _ => none
  | r :: rs, w => if r.matchesWord w then some r.number else firstRow rs w

/-- What the decoder reads from an instruction of `nbits` bits `w`, the bits above `nbits` zero; an instruction is one
16-bit word (30_encoding R90), so more bits than that are no instruction. -/
def decodeTableWord (nbits w : Nat) : Option Instr :=
  if nbits ≤ 16 then
    match decode [BitVec.ofNat 16 (w % 2 ^ nbits)] with
    | .ok (i, _) => some i
    | .error _ => none
  else none

end Sys2Proof
end

