-- ==== Sys2Proof/Config.lean ====
section
/-! DEFINITION. What an implementation fixes (00_scope section 4: the parameters) and the values the spec leaves free. -/

namespace Sys2Proof

/-- ADDRESS_SPACE: one array for everything, or a program space apart from data and I/O (00_scope R9, 20_memory R60). -/
inductive AddressSpace where
  | unified
  | split
deriving DecidableEq, Repr

/-- SUB_C: what C says after a subtraction (40_execution_model R132, 90_conflicts C2). -/
inductive SubC where
  | borrow
  | notBorrow
deriving DecidableEq, Repr

/-- FLAG_OTHERWISE: C and V of an instruction whose rule says "0 (otherwise)" (40_execution_model R130). -/
inductive FlagOtherwise where
  | clear
  | keep
deriving DecidableEq, Repr

/-- ALG_MODE: A, L and G stored bits, or computed at each read of R14 (40_execution_model R134). -/
inductive AlgMode where
  | stored
  | live
deriving DecidableEq, Repr

/-- NEG_MODE: what `neg Rx` computes (47_single_register R233, 90_conflicts C5). -/
inductive NegMode where
  | twosComplement
  | byteSwap
deriving DecidableEq, Repr

/-- SHIFT_AMOUNT: the count of a register-count shift (45_shifts R210). -/
inductive ShiftAmount where
  | full
  | mod16
deriving DecidableEq, Repr

/-- DIV_ZERO: a zero divisor draws its result or is refused (46_multiply_divide R224). -/
inductive DivZero where
  | draw
  | refuse
deriving DecidableEq, Repr

/-- The two treatments R224 allows for -32768 / -1: computed by R223, or put under DIV_ZERO.
DESIGN CHOICE, safe: the field and its name are the model's (log 7). -/
inductive IdivOverflow where
  | computed
  | asDivZero
deriving DecidableEq, Repr

/-- The launch parameters of 00_scope section 4. IRQ_SAMPLING has one value and MEM_INIT is memory itself, so neither is a field. -/
structure Config where
  addressSpace : AddressSpace
  /-- IO_REGION: the data addresses the platform gives to devices (20_memory R66). -/
  ioRegion : List Word
  subC : SubC
  flagOtherwise : FlagOtherwise
  algMode : AlgMode
  negMode : NegMode
  shiftAmount : ShiftAmount
  divZero : DivZero
  idivOverflow : IdivOverflow
deriving DecidableEq, Repr

/-- The spec's defaults; ADDRESS_SPACE has none and is `unified` here. DESIGN CHOICE, unsafe for a claim that
rests on it (log 3): statements are over every value of `Config`. -/
def Config.defaults : Config where
  addressSpace := .unified
  ioRegion := []
  subC := .borrow
  flagOtherwise := .clear
  algMode := .stored
  negMode := .twosComplement
  shiftAmount := .full
  divZero := .draw
  idivOverflow := .computed

/-- Free value: the n-th drawn word, a quotient by zero (R224) or a word read from IO_REGION (20_memory R63). Log 6. -/
opaque Config.drawWord : Nat → Word

/-- Free value: the Z input of the n-th draw (R224: z is a draw of its own). Log 6. -/
opaque Config.drawZ : Nat → Bool

/-- Free value: the S input of the n-th draw (R224: s is a draw of its own). Log 6. -/
opaque Config.drawS : Nat → Bool

/-- Free value: MEM_INIT of the data space, or of the one space when unified, at an address no listed word covers
(70_reset_and_hazards R303, 93 U17: any value, the same at every read). Log 2. -/
opaque Config.launchData : Word → Word

/-- Free value: MEM_INIT of the program space when split, as `Config.launchData`. Log 2. -/
opaque Config.launchProgram : Word → Word

end Sys2Proof
end

