-- ==== Sys2Proof/Machine/State.lean ====
section
/-! DEFINITION. The state of the machine (10_state R20), as plain data, its outcomes' reasons, and the state after reset (R48). -/

namespace Sys2Proof.Machine

/-- The context bit K: 0 normal, 1 interrupt handling (10_state R24). -/
inductive Context where
  | normal
  | interrupt
deriving DecidableEq, Repr

/-- One register set (10_state R20, R21, R23). R14 has fifteen stored bits: its bit 15 is K, outside the sets (R24). -/
structure RegSet where
  /-- R0 to R13 (R21, R22). -/
  gpr : Vector Word 14
  /-- R14, bits 14 to 0: -IHR---- GLASVXZC (R26). -/
  fg : BitVec 15
  /-- R15, the program counter (R28). -/
  pc : Word
deriving DecidableEq, Repr

/-- One word of memory at a word address (20_memory R61, R67: the smallest addressable unit is the 16-bit word; log 1). -/
abbrev Cell := Nat × Word

/-- The words of an address space that are known, addresses strictly rising (log 2). -/
abbrev Memory := List Cell

/-- The two input lines as sampled at one step: `irq` (10_state R46) and the reset input (70_reset_and_hazards R300). -/
structure Inputs where
  irq : Bool
  reset : Bool
deriving DecidableEq, Repr

/-- What a device sees: an access to an address in IO_REGION (20_memory R63, R64; log 9). -/
inductive IoEvent where
  /-- a load read address `a` and drew `v` -/
  | read (a v : Word)
  /-- a store wrote `v` to address `a` -/
  | write (a v : Word)
deriving DecidableEq, Repr

/-- The whole state (10_state R20) with the launch parameters and the model's own bookkeeping. -/
structure State where
  /-- The launch parameters; no step changes them (00_scope section 4, log 3). -/
  cfg : Config
  /-- The active context (R24). -/
  K : Context
  /-- R[0][0..15], the normal register set (R23). -/
  normal : RegSet
  /-- R[1][0..15], the interrupt register set (R23). -/
  interrupt : RegSet
  /-- Set when the program halts the processor (R45). -/
  halted : Bool
  /-- Data memory; under `unified` the one memory (20_memory R60). -/
  dataMem : Memory
  /-- Program memory, which Fetch reads under `split` (20_memory R60). -/
  progMem : Memory
  /-- The input lines of the steps to come, one entry a step (10_state R46, log 4). -/
  inputs : List Inputs
  /-- The levels the input lines keep for ever once `inputs` is used up, so that a stuck-high signal has a state
  (60_exceptions R264, log 4). -/
  held : Inputs
  /-- I/O events so far, oldest first (20_memory R64, log 9). -/
  ioLog : List IoEvent
  /-- How many free values have been drawn (log 6). -/
  draws : Nat
deriving DecidableEq, Repr

/-- The hardware raises no exception, fault or trap and has no stuck state (60_exceptions R260, 93 part 1): no constructor. -/
inductive Fault where
deriving DecidableEq, Repr

/-- Why a step has no successor. Each is safe: nothing is claimed of what the hardware does there. -/
inductive Refusal where
  /-- Raised by an arm of `exec` whose instruction has no meaning yet. Safe. No arm raises it. -/
  | notModelled (mnemonic : String)
  /-- Raised by `execReservedOp4` when the condition holds: opcode 0100 has no meaning (30_encoding R97). Safe. -/
  | reservedOpcode0100
  /-- Raised by `execReservedIncPc` when the condition holds: `add Rx, 1` excludes R15 (30_encoding R98). Safe. -/
  | reservedIncrementOfR15
  /-- Raised by `execDivReg` and `execIdivReg` under DIV_ZERO = refuse alone (46_multiply_divide R224). Safe. -/
  | divisionRefused
  /-- Raised by `step` when the word to fetch lies in IO_REGION (20_memory R62). Safe. -/
  | fetchFromIoRegion (a : Word)
deriving DecidableEq, Repr

/-- The outcome of one step of this machine. -/
abbrev Result := Host.Outcome State Fault Refusal

/-- Every register of a set at its reset value, 0 (10_state R48). -/
def RegSet.zero : RegSet where
  gpr := Vector.replicate 14 0#16
  fg := 0#15
  pc := 0#16

/-- The machine right after reset (10_state R48, 70_reset_and_hazards R301): all thirty-two registers 0, K = 0, not halted.
No word of memory is known (R303, log 2). The parameters are the spec's defaults (log 3); the inputs, the list of I/O
events and the count of draws are the model's own (logs 4, 9, 6: DESIGN CHOICE). -/
def State.reset : State where
  cfg := Config.defaults
  K := .normal
  normal := RegSet.zero
  interrupt := RegSet.zero
  halted := false
  dataMem := []
  progMem := []
  inputs := []
  held := ⟨false, false⟩
  ioLog := []
  draws := 0

end Sys2Proof.Machine
end

