-- ==== Sys2Proof/Machine/Flags.lean ====
section
/-! DEFINITION. The flag bits of R14, the arithmetic and shift functions with their flag inputs, and the flag update
(10_state R26 to R42, 40_execution_model R130 to R134, 45_shifts R210). -/

namespace Sys2Proof.Machine

/-- Bit numbers of R14 (10_state R26). -/
abbrev FG.C : Nat := 0
abbrev FG.Z : Nat := 1
abbrev FG.X : Nat := 2
abbrev FG.V : Nat := 3
abbrev FG.S : Nat := 4
abbrev FG.A : Nat := 5
abbrev FG.L : Nat := 6
abbrev FG.G : Nat := 7
abbrev FG.R : Nat := 12
abbrev FG.H : Nat := 13
abbrev FG.I : Nat := 14

/-- `v` with bit `i` replaced by `b` (40_execution_model R126). -/
def putBit {n : Nat} (v : BitVec n) (i : Nat) (b : Bool) : BitVec n :=
  if b then v ||| (1#n <<< i) else v &&& ~~~(1#n <<< i)

/-- What an instruction hands to the flag update; `none` is the rule's "0 (otherwise)" (40_execution_model R130, R131). -/
structure FlagInputs where
  c : Option Bool
  z : Bool
  v : Option Bool
  s : Bool
deriving DecidableEq, Repr

/-- z and s of a 16-bit result (R131) with the c and v of its rule. -/
def wordFlags (res : Word) (c v : Option Bool) : FlagInputs where
  c := c
  z := decide (res = 0#16)
  v := v
  s := res.msb

/-- z = 1 - b and s = b of a one-bit result, c and v 0 (otherwise) (R131). -/
def bitFlags (b : Bool) : FlagInputs where
  c := none
  z := !b
  v := none
  s := b

/-- A 16-bit result and the flags of its rule. -/
structure Computed where
  res : Word
  flags : FlagInputs
deriving DecidableEq, Repr

/-- A result whose rule says c = 0 and v = 0 (otherwise) (R131). -/
def plainResult (res : Word) : Computed := ⟨res, wordFlags res none none⟩

/-- A signed value outside -32768 to 32767 (R132). -/
def signedOverflow (t : Int) : Bool := decide (t < -32768 ∨ 32767 < t)

/-- Add(a, b) (40_execution_model R132). -/
def addWords (a b : Word) : Computed :=
  ⟨a + b, wordFlags (a + b) (some (decide (65536 ≤ a.toNat + b.toNat))) (some (signedOverflow (a.toInt + b.toInt)))⟩

/-- c of Sub(a, b): the borrow, or its complement under SUB_C = not_borrow (R132). -/
def subCarry (cfg : Config) (a b : Word) : Bool :=
  match cfg.subC with
  | .borrow => decide (a.toNat < b.toNat)
  | .notBorrow => decide (b.toNat ≤ a.toNat)

/-- Sub(a, b) (40_execution_model R132). -/
def subWords (cfg : Config) (a b : Word) : Computed :=
  ⟨a - b, wordFlags (a - b) (some (subCarry cfg a b)) (some (signedOverflow (a.toInt - b.toInt)))⟩

/-- c of Shl(a, n): the last bit moved out at the top (45_shifts R210). -/
def shlCarry (a : Word) (n : Nat) : Bool :=
  if 1 ≤ n ∧ n ≤ 16 then a.getLsbD (16 - n) else false

/-- c of Shr(a, n): the last bit moved out at the bottom (45_shifts R210). -/
def shrCarry (a : Word) (n : Nat) : Bool :=
  if 1 ≤ n ∧ n ≤ 16 then a.getLsbD (n - 1) else false

/-- c of Sar(a, n): past 16 every bit moved out is a copy of the sign (45_shifts R210). -/
def sarCarry (a : Word) (n : Nat) : Bool :=
  if n = 0 then false else if n ≤ 16 then a.getLsbD (n - 1) else a.msb

/-- Shl(a, n) (45_shifts R210). -/
def shlWord (a : Word) (n : Nat) : Computed :=
  ⟨a <<< n, wordFlags (a <<< n) (some (shlCarry a n)) none⟩

/-- Shr(a, n) (45_shifts R210). -/
def shrWord (a : Word) (n : Nat) : Computed :=
  ⟨a >>> n, wordFlags (a >>> n) (some (shrCarry a n)) none⟩

/-- Sar(a, n) (45_shifts R210). -/
def sarWord (a : Word) (n : Nat) : Computed :=
  ⟨a.sshiftRight n, wordFlags (a.sshiftRight n) (some (sarCarry a n)) none⟩

/-- The two bytes of a word exchanged (47_single_register R233). -/
def swapBytes (a : Word) : Word := a.extractLsb' 0 8 ++ a.extractLsb' 8 8

/-- `neg` under each NEG_MODE (47_single_register R233). -/
def negWord (cfg : Config) (a : Word) : Computed :=
  match cfg.negMode with
  | .twosComplement => subWords cfg 0#16 a
  | .byteSwap => plainResult (swapBytes a)

/-- A = C and not Z (10_state R35, 40_execution_model R134). -/
def algA (fg : BitVec 15) : Bool := fg.getLsbD FG.C && !fg.getLsbD FG.Z

/-- L = S xor V (10_state R36, 40_execution_model R134). -/
def algL (fg : BitVec 15) : Bool := fg.getLsbD FG.S ^^ fg.getLsbD FG.V

/-- G = not Z and S = V (10_state R37, 40_execution_model R134). -/
def algG (fg : BitVec 15) : Bool := !fg.getLsbD FG.Z && (fg.getLsbD FG.S == fg.getLsbD FG.V)

/-- Bits 5, 6 and 7 computed from the C, Z, S and V of the same word. -/
def withAlg (fg : BitVec 15) : BitVec 15 :=
  putBit (putBit (putBit fg FG.A (algA fg)) FG.L (algL fg)) FG.G (algG fg)

/-- C or V of an update: the rule's value, or for "0 (otherwise)" 0 or, under FLAG_OTHERWISE = keep, the old bit (R130). -/
def otherwise (cfg : Config) (old : Bool) : Option Bool → Bool
  | some b => b
  | none =>
    match cfg.flagOtherwise with
    | .clear => false
    | .keep => old

/-- C, Z, V and S written, the rest kept (R130). -/
def putFlags (cfg : Config) (fl : FlagInputs) (fg : BitVec 15) : BitVec 15 :=
  putBit (putBit (putBit (putBit fg FG.C (otherwise cfg (fg.getLsbD FG.C) fl.c)) FG.Z fl.z)
    FG.V (otherwise cfg (fg.getLsbD FG.V) fl.v)) FG.S fl.s

/-- UpdateFlags on the stored flag word: C, Z, V, S and, where A, L and G are stored bits, A, L and G from them (R130, R134). -/
def updateFlags (cfg : Config) (fl : FlagInputs) (fg : BitVec 15) : BitVec 15 :=
  match cfg.algMode with
  | .stored => withAlg (putFlags cfg fl fg)
  | .live => putFlags cfg fl fg

/-- Bits 14 to 0 of a read of R14: under ALG_MODE = live A, L and G are computed at the read (R134). -/
def readFlags (cfg : Config) (fg : BitVec 15) : BitVec 15 :=
  match cfg.algMode with
  | .stored => fg
  | .live => withAlg fg

/-- Bits 14 to 0 of R14 after the write of `v` over `fg`: stored as given, but under ALG_MODE = live writes to
A, L and G are ignored (R127, R134; log 13). -/
def writeFlags (cfg : Config) (fg : BitVec 15) (v : Word) : BitVec 15 :=
  match cfg.algMode with
  | .stored => v.setWidth 15
  | .live =>
    putBit (putBit (putBit (v.setWidth 15) FG.A (fg.getLsbD FG.A)) FG.L (fg.getLsbD FG.L)) FG.G (fg.getLsbD FG.G)

/-- The condition of an instruction on the flag word: only Z, C and X are tested (40_execution_model R122). -/
def condHolds (c : Cond) (fg : BitVec 15) : Bool :=
  match c with
  | .al => true
  | .eq => fg.getLsbD FG.Z
  | .ne => !fg.getLsbD FG.Z
  | .cs => fg.getLsbD FG.C
  | .cc => !fg.getLsbD FG.C
  | .xs => fg.getLsbD FG.X
  | .xc => !fg.getLsbD FG.X
  | .no => true

end Sys2Proof.Machine
end

