-- ==== Sys2Proof/Machine/Operands.lean ====
section
/-! DEFINITION. The operand forms: registers of the active set, a bit of a register, the X flag, the immediates and the
shift counts (10_state R27, 30_encoding R93, R96, 45_shifts R210). -/

namespace Sys2Proof.Machine

/-- Register set R[k] (10_state R23). -/
def State.regs (s : State) (k : Context) : RegSet :=
  match k with
  | .normal => s.normal
  | .interrupt => s.interrupt

/-- The state with register set R[k] replaced. -/
def State.setRegs (s : State) (k : Context) (r : RegSet) : State :=
  match k with
  | .normal => { s with normal := r }
  | .interrupt => { s with interrupt := r }

/-- The value of K as a bit, bit 15 of every read of R14 (10_state R24). -/
def Context.bit : Context → Bool
  | .normal => false
  | .interrupt => true

/-- The context a written bit 15 asks for (40_execution_model R127). -/
def Context.ofBit (b : Bool) : Context := if b then .interrupt else .normal

/-- Register read x[i] in context k: R14 has K as bit 15 over its stored bits, R15 is the address of the next
instruction (10_state R27). -/
def RegSet.read (cfg : Config) (k : Context) (r : RegSet) (i : Reg) : Word :=
  if h : i.val < 14 then r.gpr[i.val]
  else if i.val = 14 then BitVec.ofBool k.bit ++ readFlags cfg r.fg
  else r.pc

/-- x[i] of the active context (10_state R27). -/
def State.x (s : State) (i : Reg) : Word := (s.regs s.K).read s.cfg s.K i

/-- The stored flag word of the active context (40_execution_model R122). -/
def State.fg (s : State) : BitVec 15 := (s.regs s.K).fg

/-- The X flag of the active set (42_bit_instructions R171). -/
def State.flagX (s : State) : Bool := s.fg.getLsbD FG.X

/-- Rx:Imm4, bit b of x[x] (42_bit_instructions R170). -/
def State.xBit (s : State) (x : Reg) (b : BitNo) : Bool := (s.x x).getLsbD b.val

/-- A register R0 to R7 as one of R0 to R15 (30_encoding R93). -/
def low (x : LowReg) : Reg := x.castLE (by decide)

/-- simm8 as a 16-bit pattern, sext_8 (30_encoding R96). -/
def sext8 (b : Byte) : Word := b.signExtend 16

/-- The count of an immediate shift, iii + 1 (30_encoding R96). -/
def immCount (i : Fin 8) : Nat := i.val + 1

/-- The count of a register shift: the whole of Ry, or its low four bits under SHIFT_AMOUNT = mod16 (45_shifts R210). -/
def regCount (cfg : Config) (y : Word) : Nat :=
  match cfg.shiftAmount with
  | .full => y.toNat
  | .mod16 => y.toNat % 16

/-- R0 with its low byte replaced (43_immediate_byte R190). -/
def putLowByte (r : Word) (imm : Byte) : Word := r.extractLsb' 8 8 ++ imm

/-- R0 with its high byte replaced (43_immediate_byte R191). -/
def putHighByte (r : Word) (imm : Byte) : Word := imm ++ r.extractLsb' 0 8

end Sys2Proof.Machine
end

