-- ==== Sys2Proof/Machine/Ops.lean ====
section
/-! DEFINITION. The named operations: memory, fetch, register write-back, flag update, the reactions (soft reset, halt,
context switch), interrupt entry and return, reset, and lines 7 to 9 of the step, which every instruction ends with
(20_memory, 40_execution_model R120 to R136, 60_exceptions, 70_reset_and_hazards). -/

namespace Sys2Proof.Machine

/-! ### Memory -/

/-- The word known at an address, if any (log 2). -/
def Memory.read : Memory → Nat → Option Word
  | [], _ => none
  | (b, w) :: m, a => if a = b then some w else Memory.read m a

/-- The memory with the word at `a` set, addresses kept rising. -/
def Memory.write : Memory → Nat → Word → Memory
  | [], a, v => [(a, v)]
  | (b, w) :: m, a, v =>
    if a < b then (a, v) :: (b, w) :: m
    else if a = b then (a, v) :: m
    else (b, w) :: Memory.write m a v

/-- Every address of the list is at least `lo` and below 65536, and they rise strictly. -/
def Memory.risingFrom : Nat → Memory → Bool
  | _, [] => true
  | lo, (b, _) :: m => decide (lo ≤ b) && decide (b < 65536) && Memory.risingFrom (b + 1) m

/-- The canonical form: addresses strictly rising, inside the address space (20_memory R61). -/
def Memory.wf (m : Memory) : Bool := Memory.risingFrom 0 m

/-- The data word at `a`: the latest stored or listed word, else the launch word, any value (20_memory R72, 70 R303; log 2). -/
def State.dataWord (s : State) (a : Word) : Word :=
  (s.dataMem.read a.toNat).getD (Config.launchData a)

/-- The program-space word at `a` under `split` (20_memory R60). -/
def State.progWord (s : State) (a : Word) : Word :=
  (s.progMem.read a.toNat).getD (Config.launchProgram a)

/-- `a` is a device's data address (20_memory R66). -/
def State.isIo (s : State) (a : Word) : Bool := s.cfg.ioRegion.contains a

/-- The value MemRead gives: the memory word, or in IO_REGION a draw (20_memory R63). -/
def State.loadValue (s : State) (a : Word) : Word :=
  if s.isIo a then Config.drawWord s.draws else s.dataWord a

/-- MemRead's effect: none on plain memory; in IO_REGION the access happens and uses up a draw (20_memory R63, R69; log 9). -/
def State.afterLoad (s : State) (a : Word) : State :=
  if s.isIo a then { s with draws := s.draws + 1, ioLog := s.ioLog ++ [.read a (Config.drawWord s.draws)] } else s

/-- MemWrite: the word is set, or in IO_REGION the write is an event the model records (20_memory R64). -/
def State.storeWord (s : State) (a v : Word) : State :=
  if s.isIo a then { s with ioLog := s.ioLog ++ [.write a v] }
  else { s with dataMem := s.dataMem.write a.toNat v }

/-- Fetch(a) (20_memory R62). -/
def State.fetchWord (s : State) (a : Word) : Word :=
  match s.cfg.addressSpace with
  | .unified => s.dataWord a
  | .split => s.progWord a

/-- Fetch(a) is refused: the address is a device's, in the one space that holds program and I/O (20_memory R62; log 10). -/
def State.fetchIsIo (s : State) (a : Word) : Bool :=
  match s.cfg.addressSpace with
  | .unified => s.isIo a
  | .split => false

/-- The state with a word placed where Fetch(a) reads it. -/
def State.placeWord (s : State) (a v : Word) : State :=
  match s.cfg.addressSpace with
  | .unified => { s with dataMem := s.dataMem.write a.toNat v }
  | .split => { s with progMem := s.progMem.write a.toNat v }

/-! ### Registers -/

/-- Register write x[d] <- v into a set, bit 15 of R14 left out (40_execution_model R126 to R128). -/
def RegSet.write (cfg : Config) (r : RegSet) (d : Reg) (v : Word) : RegSet :=
  if h : d.val < 14 then { r with gpr := r.gpr.set d.val v }
  else if d.val = 14 then { r with fg := writeFlags cfg r.fg v }
  else { r with pc := v }

/-- x[d] <- v in the active context (R126). -/
def State.writeReg (s : State) (d : Reg) (v : Word) : State :=
  s.setRegs s.K ((s.regs s.K).write s.cfg d v)

/-- X of the active set written as a destination (42_bit_instructions R170). -/
def State.writeX (s : State) (b : Bool) : State :=
  s.setRegs s.K { s.regs s.K with fg := putBit (s.regs s.K).fg FG.X b }

/-- UpdateFlags(k, ...) (40_execution_model R130). -/
def State.updateFlagsOf (s : State) (k : Context) (fl : FlagInputs) : State :=
  s.setRegs k { s.regs k with fg := updateFlags s.cfg fl (s.regs k).fg }

/-- R15 of the active set advanced, modulo 65536 (R121, 10_state R29). -/
def State.advancePc (s : State) : State :=
  s.setRegs s.K { s.regs s.K with pc := (s.regs s.K).pc + 1#16 }

/-! ### Reset, halt, contexts -/

/-- The reset state of the processor: thirty-two registers, K and halted 0, memory as it was
(10_state R48, 60_exceptions R275, 70_reset_and_hazards R300, R303). -/
def State.processorReset (s : State) : State :=
  { s with K := .normal, normal := RegSet.zero, interrupt := RegSet.zero, halted := false }

/-- The stored bit 14 of the interrupt set's R14, the cause of the entry (60_exceptions R268). -/
def State.setCause (s : State) (b : Bool) : State :=
  { s with interrupt := { s.interrupt with fg := putBit s.interrupt.fg FG.I b } }

/-- TAKING THE INTERRUPT, the machine's one asynchronous event: K <- 1, cause 1, nothing else (60_exceptions R265). -/
def State.enterBySignal (s : State) : State :=
  { s.setCause true with K := .interrupt }

/-- ContextSwitchByProgram: entry sets K and cause 0 (60_exceptions R267); the return only clears K (R269). -/
def State.switchTo (s : State) (k : Context) : State :=
  match k with
  | .interrupt => { s.setCause false with K := .interrupt }
  | .normal => { s with K := .normal }

/-- The interrupt is taken at this point: irq = 1, K = 0 and I of the normal set 1 (60_exceptions R263). -/
def State.takesInterrupt (s : State) (irq : Bool) : Bool :=
  irq && decide (s.K = .normal) && s.normal.fg.getLsbD FG.I

/-- Line 2 of the step (40_execution_model R120). -/
def State.sampleInterrupt (s : State) (irq : Bool) : State :=
  if s.takesInterrupt irq then s.enterBySignal else s

/-! ### The input lines -/

/-- The lines as sampled at this step: the first listed sample, or the held levels past the end of the list (log 4). -/
def State.lines (s : State) : Inputs := s.inputs.headD s.held

/-- The state with this step's sample used up. -/
def State.consumeInputs (s : State) : State := { s with inputs := s.inputs.tail }

/-- The address the next step fetches from, if it fetches (40_execution_model R120 lines 2 and 3). -/
def State.nextFetchAddress (s : State) : Word :=
  ((s.sampleInterrupt s.lines.irq).regs (s.sampleInterrupt s.lines.irq).K).pc

/-- The sample with its reset line at 0. -/
def Inputs.withoutReset (i : Inputs) : Inputs := { i with reset := false }

/-- The list with the reset line of the next sample at 0; a held reset is put off by one listed sample. -/
def clearFirstReset (held : Inputs) : List Inputs → List Inputs
  | [] => if held.reset then [held.withoutReset] else []
  | i :: rest => i.withoutReset :: rest

/-- IO_REGION without the address `a`, in the one space where a device would keep `a` from being fetched (20_memory R62). -/
def fetchableRegion (cfg : Config) (a : Word) : List Word :=
  match cfg.addressSpace with
  | .unified => cfg.ioRegion.filter (fun b => decide (b ≠ a))
  | .split => cfg.ioRegion

/-- The state with what keeps the next step from fetching taken away: halted, the reset line of the next sample, and a
device at the address fetched from (log 15). -/
def State.readyToFetch (s : State) : State :=
  { s with
    halted := false
    inputs := clearFirstReset s.held s.inputs
    cfg := { s.cfg with ioRegion := fetchableRegion s.cfg s.nextFetchAddress } }

/-! ### Lines 4 and 7 to 9 of the step -/

/-- Where an instruction's result goes (40_execution_model R124 lists the kinds). A bit of a register is a register
write with the bit replaced (R126). -/
inductive Dest where
  | reg (d : Reg) (v : Word)
  | flagX (b : Bool)
  | mem (a v : Word)
deriving DecidableEq, Repr

/-- What an instruction asks the CPU to react to (60_exceptions R275, R276). -/
inductive Reaction where
  | none
  | softReset
  | halt
deriving DecidableEq, Repr

/-- Line 7: the result written (40_execution_model R126 to R128, 42 R170, 20_memory R64). -/
def State.writeBack (s : State) : Dest → State
  | .reg d v => s.writeReg d v
  | .flagX b => s.writeX b
  | .mem a v => s.storeWord a v

/-- The context a write asks for when bit 15 of a written R14 differs from K (40_execution_model R127). -/
def State.requested (s : State) : Dest → Option Context
  | .reg d v => if d.val = 14 ∧ v.msb ≠ s.K.bit then some (Context.ofBit v.msb) else none
  | .flagX _ => none
  | .mem _ _ => none

/-- Soft reset and halt (60_exceptions R275, R276). -/
def State.react (s : State) : Reaction → State
  | .none => s
  | .softReset => s.processorReset
  | .halt => { s with halted := true }

/-- The context switch by program, if one was asked for (40_execution_model R127; log 12). -/
def State.switchIf (s : State) : Option Context → State
  | some k => s.switchTo k
  | none => s

/-- Line 8 (40_execution_model R129). -/
def State.flagLine (s : State) (k0 : Context) (f : FlagUpdate) (fl : FlagInputs) : State :=
  match f with
  | .nf => s
  | .fl => s.updateFlagsOf k0 fl

/-- Lines 7 to 9 of the step: write-back and reactions unless the condition is `no`, the flag update between them
(40_execution_model R120, R124, R136). -/
def finish (c : Cond) (f : FlagUpdate) (d : Dest) (fl : FlagInputs) (r : Reaction) (s : State) : Result :=
  if c = .no then .next (s.flagLine s.K f fl)
  else .next ((((s.writeBack d).flagLine s.K f fl).react r).switchIf (s.requested d))

/-- Line 4: an instruction whose condition fails only lets the step end (40_execution_model R123). -/
def whenHolds (c : Cond) (s : State) (body : Result) : Result :=
  if condHolds c s.fg then body else .next s

/-- An instruction that computes a register's new value (40_execution_model R126, R131). -/
def finishReg (c : Cond) (f : FlagUpdate) (d : Reg) (r : Computed) (s : State) : Result :=
  whenHolds c s (finish c f (.reg d r.res) r.flags .none s)

/-- An instruction that writes bit b of Rx, with the reaction it may cause (40_execution_model R126, 42 R171 to R174). -/
def finishBit (c : Cond) (f : FlagUpdate) (x : Reg) (b : BitNo) (v : Bool) (r : Reaction) (s : State) : Result :=
  whenHolds c s (finish c f (.reg x (putBit (s.x x) b.val v)) (bitFlags v) r s)

/-- The CPU reacts to a 1 moved to R14:12 or R14:13 (10_state R39, R40, 60_exceptions R275, R276). -/
def moveReaction (x : Reg) (b : BitNo) (v : Bool) : Reaction :=
  if x.val = 14 ∧ v = true then
    if b.val = FG.R then .softReset else if b.val = FG.H then .halt else .none
  else .none

end Sys2Proof.Machine
end

