-- ==== Sys2Proof/Machine/Alu.lean ====
section
/-! DEFINITION. Two-register arithmetic and logic on R0 to R7 (44_alu_two_register). -/

namespace Sys2Proof.Machine

/-- `add Rx, Ry` (R200). -/
def execAddReg (c : Cond) (f : FlagUpdate) (x y : LowReg) (s : State) : Result :=
  finishReg c f (low x) (addWords (s.x (low x)) (s.x (low y))) s

/-- `sub Rx, Ry` (R201). -/
def execSubReg (c : Cond) (f : FlagUpdate) (x y : LowReg) (s : State) : Result :=
  finishReg c f (low x) (subWords s.cfg (s.x (low x)) (s.x (low y))) s

/-- `and Rx, Ry` (R202). -/
def execAndReg (c : Cond) (f : FlagUpdate) (x y : LowReg) (s : State) : Result :=
  finishReg c f (low x) (plainResult (s.x (low x) &&& s.x (low y))) s

/-- `or Rx, Ry` (R203). -/
def execOrReg (c : Cond) (f : FlagUpdate) (x y : LowReg) (s : State) : Result :=
  finishReg c f (low x) (plainResult (s.x (low x) ||| s.x (low y))) s

/-- `xor Rx, Ry` (R204). -/
def execXorReg (c : Cond) (f : FlagUpdate) (x y : LowReg) (s : State) : Result :=
  finishReg c f (low x) (plainResult (s.x (low x) ^^^ s.x (low y))) s

end Sys2Proof.Machine
end

