-- ==== Sys2Proof/Machine/Bits.lean ====
section
/-! DEFINITION. The bit instructions (42_bit_instructions). -/

namespace Sys2Proof.Machine

/-- `mov X, Rx:Imm4` (R170). -/
def execMovXBit (c : Cond) (f : FlagUpdate) (x : Reg) (b : BitNo) (s : State) : Result :=
  whenHolds c s (finish c f (.flagX (s.xBit x b)) (bitFlags (s.xBit x b)) .none s)

/-- `mov Rx:Imm4, X`; with R14:12 or R14:13 and X = 1 the CPU reacts (R171, 60_exceptions R275, R276). -/
def execMovBitX (c : Cond) (f : FlagUpdate) (x : Reg) (b : BitNo) (s : State) : Result :=
  finishBit c f x b s.flagX (moveReaction x b s.flagX) s

/-- `mov Rx:Imm4, 0` (R172). -/
def execClearBit (c : Cond) (f : FlagUpdate) (x : Reg) (b : BitNo) (s : State) : Result :=
  finishBit c f x b false .none s

/-- `mov Rx:Imm4, 1`; with R14:12 or R14:13 the CPU reacts (R173, 60_exceptions R275, R276). -/
def execSetBit (c : Cond) (f : FlagUpdate) (x : Reg) (b : BitNo) (s : State) : Result :=
  finishBit c f x b true (moveReaction x b true) s

/-- `not Rx:imm4`; the CPU never reacts to it (R174, 10_state R39, R40). -/
def execNotBit (c : Cond) (f : FlagUpdate) (x : Reg) (b : BitNo) (s : State) : Result :=
  finishBit c f x b (!s.xBit x b) .none s

end Sys2Proof.Machine
end

