-- ==== Sys2Proof/Machine/Immediate.lean ====
section
/-! DEFINITION. The byte-immediate instructions (43_immediate_byte). -/

namespace Sys2Proof.Machine

/-- `mov low R0, imm8` (R190). -/
def execMovLow (c : Cond) (f : FlagUpdate) (imm : Byte) (s : State) : Result :=
  finishReg c f 0 (plainResult (putLowByte (s.x 0) imm)) s

/-- `mov high R0, imm8` (R191). -/
def execMovHigh (c : Cond) (f : FlagUpdate) (imm : Byte) (s : State) : Result :=
  finishReg c f 0 (plainResult (putHighByte (s.x 0) imm)) s

/-- `add R15, simm8`: a branch relative to the next instruction (R192). -/
def execAddPc (c : Cond) (f : FlagUpdate) (simm : Byte) (s : State) : Result :=
  finishReg c f 15 (addWords (s.x 15) (sext8 simm)) s

end Sys2Proof.Machine
end

