-- ==== Sys2Proof/Machine/Move.lean ====
section
/-! DEFINITION. mov between registers and memory (41_mov_register_memory). -/

namespace Sys2Proof.Machine

/-- `mov Rx, Ry` (R160). -/
def execMovReg (c : Cond) (f : FlagUpdate) (x y : Reg) (s : State) : Result :=
  finishReg c f x (plainResult (s.x y)) s

/-- `mov Rx, [Ry]`: the read happens under `no` too (R161, 40_execution_model R124). -/
def execLoad (c : Cond) (f : FlagUpdate) (x y : Reg) (s : State) : Result :=
  whenHolds c s
    (finish c f (.reg x (s.loadValue (s.x y))) (wordFlags (s.loadValue (s.x y)) none none) .none (s.afterLoad (s.x y)))

/-- `mov [Rx], Ry`: Rx is the address and is not written (R162). -/
def execStore (c : Cond) (f : FlagUpdate) (x y : Reg) (s : State) : Result :=
  whenHolds c s (finish c f (.mem (s.x x) (s.x y)) (wordFlags (s.x y) none none) .none s)

end Sys2Proof.Machine
end

