-- ==== Sys2Proof/Machine/MulDiv.lean ====
section
/-! DEFINITION. Multiply and divide on R0 to R7 (46_multiply_divide). -/

namespace Sys2Proof.Machine

/-- The low word of the unsigned product (R220). -/
def mulWords (a b : Word) : Word := BitVec.ofNat 16 (a.toNat * b.toNat)

/-- The low word of the signed product (R221). -/
def imulWords (a b : Word) : Word := BitVec.ofInt 16 (a.toInt * b.toInt)

/-- The unsigned quotient, b not 0 (R222). -/
def divWords (a b : Word) : Word := BitVec.ofNat 16 (a.toNat / b.toNat)

/-- The signed quotient rounded toward zero, modulo 65536, b not 0 (R223). -/
def idivWords (a b : Word) : Word := BitVec.ofInt 16 (a.toInt.tdiv b.toInt)

/-- -32768 / -1, where it is put under DIV_ZERO (R224; log 7). -/
def idivOverflows (cfg : Config) (a b : Word) : Bool :=
  decide (cfg.idivOverflow = .asDivZero ∧ a = 0x8000#16 ∧ b = 0xFFFF#16)

/-- The flag inputs of a drawn quotient: z and s draws of their own, c and v 0 (otherwise) (R224). -/
def drawnFlags (n : Nat) : FlagInputs where
  c := none
  z := Config.drawZ n
  v := none
  s := Config.drawS n

/-- A division whose result the spec leaves open: the quotient, z and s are draws, or the division is refused,
by DIV_ZERO (R224; log 6). -/
def finishOpenDivision (c : Cond) (f : FlagUpdate) (d : Reg) (s : State) : Result :=
  match s.cfg.divZero with
  | .draw =>
    finish c f (.reg d (Config.drawWord s.draws)) (drawnFlags s.draws) .none { s with draws := s.draws + 1 }
  | .refuse => .refused .divisionRefused

/-- `mul Rx, Ry` (R220). -/
def execMulReg (c : Cond) (f : FlagUpdate) (x y : LowReg) (s : State) : Result :=
  finishReg c f (low x) (plainResult (mulWords (s.x (low x)) (s.x (low y)))) s

/-- `imul Rx, Ry` (R221). -/
def execImulReg (c : Cond) (f : FlagUpdate) (x y : LowReg) (s : State) : Result :=
  finishReg c f (low x) (plainResult (imulWords (s.x (low x)) (s.x (low y)))) s

/-- `div Rx, Ry` (R222, R224). -/
def execDivReg (c : Cond) (f : FlagUpdate) (x y : LowReg) (s : State) : Result :=
  if s.x (low y) = 0#16 then whenHolds c s (finishOpenDivision c f (low x) s)
  else finishReg c f (low x) (plainResult (divWords (s.x (low x)) (s.x (low y)))) s

/-- `idiv Rx, Ry` (R223, R224). -/
def execIdivReg (c : Cond) (f : FlagUpdate) (x y : LowReg) (s : State) : Result :=
  if s.x (low y) = 0#16 ∨ idivOverflows s.cfg (s.x (low x)) (s.x (low y)) = true then
    whenHolds c s (finishOpenDivision c f (low x) s)
  else finishReg c f (low x) (plainResult (idivWords (s.x (low x)) (s.x (low y)))) s

end Sys2Proof.Machine
end

