-- ==== Sys2Proof/Machine/Reserved.lean ====
section
/-! DEFINITION. The reserved rows: refused when the condition holds, `no` included, passed over when it does not
(30_encoding R97, R98, R100, 40_execution_model R123). -/

namespace Sys2Proof.Machine

/-- Opcode 0100 (30_encoding R97). -/
def execReservedOp4 (c : Cond) (_f : FlagUpdate) (_p : Byte) (s : State) : Result :=
  whenHolds c s (.refused .reservedOpcode0100)

/-- `add Rx, 1` with x = 15 (30_encoding R98). -/
def execReservedIncPc (c : Cond) (_f : FlagUpdate) (s : State) : Result :=
  whenHolds c s (.refused .reservedIncrementOfR15)

end Sys2Proof.Machine
end

