-- ==== Sys2Proof/Machine/Shift.lean ====
section
/-! DEFINITION. Shifts on R0 to R7, by a register count and by 1 to 8 (45_shifts). -/

namespace Sys2Proof.Machine

/-- `shl Rx, Ry` (R211). -/
def execShlReg (c : Cond) (f : FlagUpdate) (x y : LowReg) (s : State) : Result :=
  finishReg c f (low x) (shlWord (s.x (low x)) (regCount s.cfg (s.x (low y)))) s

/-- `shr Rx, Ry` (R212). -/
def execShrReg (c : Cond) (f : FlagUpdate) (x y : LowReg) (s : State) : Result :=
  finishReg c f (low x) (shrWord (s.x (low x)) (regCount s.cfg (s.x (low y)))) s

/-- `sar Rx, Ry` (R213). -/
def execSarReg (c : Cond) (f : FlagUpdate) (x y : LowReg) (s : State) : Result :=
  finishReg c f (low x) (sarWord (s.x (low x)) (regCount s.cfg (s.x (low y)))) s

/-- `shl Rx, imm3` (R214). -/
def execShlImm (c : Cond) (f : FlagUpdate) (x : LowReg) (i : Fin 8) (s : State) : Result :=
  finishReg c f (low x) (shlWord (s.x (low x)) (immCount i)) s

/-- `shr Rx, imm3` (R215). -/
def execShrImm (c : Cond) (f : FlagUpdate) (x : LowReg) (i : Fin 8) (s : State) : Result :=
  finishReg c f (low x) (shrWord (s.x (low x)) (immCount i)) s

/-- `sar Rx, imm3` (R216). -/
def execSarImm (c : Cond) (f : FlagUpdate) (x : LowReg) (i : Fin 8) (s : State) : Result :=
  finishReg c f (low x) (sarWord (s.x (low x)) (immCount i)) s

end Sys2Proof.Machine
end

