-- ==== Sys2Proof/Machine/Single.lean ====
section
/-! DEFINITION. Single-register instructions (47_single_register). -/

namespace Sys2Proof.Machine

/-- `add Rx, 1`, for the registers R0 to R14 its words name (R230; x = 15 is `execReservedIncPc`). -/
def execInc (c : Cond) (f : FlagUpdate) (x : Reg) (s : State) : Result :=
  if x.val = 15 then whenHolds c s (.refused .reservedIncrementOfR15)
  else finishReg c f x (addWords (s.x x) 1#16) s

/-- `sub Rx, 1` (R231). -/
def execDec (c : Cond) (f : FlagUpdate) (x : Reg) (s : State) : Result :=
  finishReg c f x (subWords s.cfg (s.x x) 1#16) s

/-- `not Rx` (R232). -/
def execNotReg (c : Cond) (f : FlagUpdate) (x : Reg) (s : State) : Result :=
  finishReg c f x (plainResult (~~~(s.x x))) s

/-- `neg Rx` (R233). -/
def execNegReg (c : Cond) (f : FlagUpdate) (x : Reg) (s : State) : Result :=
  finishReg c f x (negWord s.cfg (s.x x)) s

end Sys2Proof.Machine
end

