-- ==== Sys2Proof/Machine/Dispatch.lean ====
section
/-! DEFINITION. One arm per constructor: lines 4 to 9 of the step for a decoded instruction (40_execution_model R120). -/

namespace Sys2Proof.Machine

/-- What an instruction does to the state in which its word has been fetched and R15 advanced. -/
def exec (i : Instr) (s : State) : Host.Outcome State Fault Refusal :=
  match i with
  | .movReg c f x y => Sys2Proof.Machine.execMovReg c f x y s
  | .load c f x y => Sys2Proof.Machine.execLoad c f x y s
  | .store c f x y => Sys2Proof.Machine.execStore c f x y s
  | .movXBit c f x b => Sys2Proof.Machine.execMovXBit c f x b s
  | .reservedOp4 c f p => Sys2Proof.Machine.execReservedOp4 c f p s
  | .movBitX c f x b => Sys2Proof.Machine.execMovBitX c f x b s
  | .clearBit c f x b => Sys2Proof.Machine.execClearBit c f x b s
  | .setBit c f x b => Sys2Proof.Machine.execSetBit c f x b s
  | .notBit c f x b => Sys2Proof.Machine.execNotBit c f x b s
  | .movLow c f imm => Sys2Proof.Machine.execMovLow c f imm s
  | .movHigh c f imm => Sys2Proof.Machine.execMovHigh c f imm s
  | .addPc c f simm => Sys2Proof.Machine.execAddPc c f simm s
  | .addReg c f x y => Sys2Proof.Machine.execAddReg c f x y s
  | .subReg c f x y => Sys2Proof.Machine.execSubReg c f x y s
  | .andReg c f x y => Sys2Proof.Machine.execAndReg c f x y s
  | .orReg c f x y => Sys2Proof.Machine.execOrReg c f x y s
  | .xorReg c f x y => Sys2Proof.Machine.execXorReg c f x y s
  | .shlReg c f x y => Sys2Proof.Machine.execShlReg c f x y s
  | .shrReg c f x y => Sys2Proof.Machine.execShrReg c f x y s
  | .sarReg c f x y => Sys2Proof.Machine.execSarReg c f x y s
  | .mulReg c f x y => Sys2Proof.Machine.execMulReg c f x y s
  | .divReg c f x y => Sys2Proof.Machine.execDivReg c f x y s
  | .imulReg c f x y => Sys2Proof.Machine.execImulReg c f x y s
  | .idivReg c f x y => Sys2Proof.Machine.execIdivReg c f x y s
  | .shlImm c f x n => Sys2Proof.Machine.execShlImm c f x n s
  | .shrImm c f x n => Sys2Proof.Machine.execShrImm c f x n s
  | .sarImm c f x n => Sys2Proof.Machine.execSarImm c f x n s
  | .reservedIncPc c f => Sys2Proof.Machine.execReservedIncPc c f s
  | .inc c f x => Sys2Proof.Machine.execInc c f x s
  | .dec c f x => Sys2Proof.Machine.execDec c f x s
  | .notReg c f x => Sys2Proof.Machine.execNotReg c f x s
  | .negReg c f x => Sys2Proof.Machine.execNegReg c f x s

end Sys2Proof.Machine
end

