-- ==== Sys2Proof/Machine/Step.lean ====
section
/-! DEFINITION. One step of the processor (40_execution_model R120), and where a step fetches. -/

namespace Sys2Proof.Machine

/-- Line 3 and what follows: fetch at R15 of the active set, advance R15, run the instruction (R120, R121). -/
def runInstruction (s : State) : Result :=
  if s.fetchIsIo (s.regs s.K).pc then .refused (.fetchFromIoRegion (s.regs s.K).pc)
  else exec (decodeWord (s.fetchWord (s.regs s.K).pc)) s.advancePc

/-- One step: the reset input wins; a halted processor does nothing; else the interrupt is sampled and an instruction runs
(R120, 60_exceptions R272, R276, 70_reset_and_hazards R300). Each step uses up one sample of the input lines (log 4). -/
def step (s : State) : Host.Outcome State Fault Refusal :=
  if s.lines.reset then .next s.consumeInputs.processorReset
  else if s.halted then .next s.consumeInputs
  else runInstruction (s.consumeInputs.sampleInterrupt s.lines.irq)

/-- `s` with the instruction `w` where the next step fetches: the word is placed at the program counter that step will use,
and what would keep the step from fetching there (halt, the reset line, a device at that address) is taken away (log 15). -/
def State.withFetchWord (s : State) (nbits w : Nat) : State :=
  (s.readyToFetch).placeWord s.readyToFetch.nextFetchAddress (BitVec.ofNat 16 (w % 2 ^ nbits))

end Sys2Proof.Machine
end

