-- ==== Sys2Proof/Machine/Assembler.lean ====
section
/-! DEFINITION. The assembler's source form, its choice of an opcode, and its ten generated conditions (48_assembler). Not
processor state (10_state R49): a map from source forms to instructions and words. Text, labels and directives are not
modelled (R249, log 19): a source form is its four parts, already read. -/

namespace Sys2Proof.Machine

/-- The thirty condition names of R241 and R244. `as'` is the source's `as`. -/
inductive CondName where
  | al | eq | zs | ne | zc | cs | hs | cc | lo | xs | xc | no
  | hi | as' | ls | ac | ge | lc | lt | ll | gt | gs | le | gc | vc | vs | pl | sc | mi | ss
deriving DecidableEq, Repr

/-- What a condition name stands for: a condition code, or a flag of R14 copied to X and the code tested then (R241, R244). -/
inductive CondMeaning where
  | hardware (c : Cond)
  | generated (bit : BitNo) (c : Cond)
deriving DecidableEq, Repr

/-- The condition names (R241 the hardware's, R244 the generated ones). -/
def condMeaning : CondName → CondMeaning
  | .al => .hardware .al
  | .eq => .hardware .eq
  | .zs => .hardware .eq
  | .ne => .hardware .ne
  | .zc => .hardware .ne
  | .cs => .hardware .cs
  | .hs => .hardware .cs
  | .cc => .hardware .cc
  | .lo => .hardware .cc
  | .xs => .hardware .xs
  | .xc => .hardware .xc
  | .no => .hardware .no
  | .hi => .generated 5 .xs
  | .as' => .generated 5 .xs
  | .ls => .generated 5 .xc
  | .ac => .generated 5 .xc
  | .ge => .generated 6 .xc
  | .lc => .generated 6 .xc
  | .lt => .generated 6 .xs
  | .ll => .generated 6 .xs
  | .gt => .generated 7 .xs
  | .gs => .generated 7 .xs
  | .le => .generated 7 .xc
  | .gc => .generated 7 .xc
  | .vc => .generated 3 .xc
  | .vs => .generated 3 .xs
  | .pl => .generated 4 .xc
  | .sc => .generated 4 .xc
  | .mi => .generated 4 .xs
  | .ss => .generated 4 .xs

/-- A name of each hardware condition, for printing an instruction. -/
def condNameOf : Cond → CondName
  | .al => .al
  | .eq => .eq
  | .ne => .ne
  | .cs => .cs
  | .cc => .cc
  | .xs => .xs
  | .xc => .xc
  | .no => .no

/-- The fifteen mnemonics (30_encoding R95). -/
inductive Mnemonic where
  | mov | add | sub | and | or | xor | not | shl | shr | sar | mul | div | imul | idiv | neg
deriving DecidableEq, Repr

/-- The operand forms of R243. -/
inductive Operand where
  /-- `Rn` -/
  | reg (n : Reg)
  /-- `[Rn]` -/
  | mem (n : Reg)
  /-- `Rn:b` -/
  | bit (n : Reg) (b : BitNo)
  /-- `X` -/
  | flagX
  /-- `low R0` -/
  | lowR0
  /-- `high R0` -/
  | highR0
  /-- a number -/
  | num (v : Int)
deriving DecidableEq, Repr

/-- The four parts of a source instruction (R240). -/
structure Source where
  cond : CondName
  flags : FlagUpdate
  mnemonic : Mnemonic
  operands : List Operand
deriving DecidableEq, Repr

/-- A register as an operand of a form that names R0 to R7 alone (R243, 30_encoding R93). -/
def toLow (x : Reg) : Option LowReg := if h : x.val < 8 then some ⟨x.val, h⟩ else none

/-- A number 0 to 255 (R243). -/
def toImm8 (v : Int) : Option Byte := if 0 ≤ v ∧ v ≤ 255 then some (BitVec.ofInt 8 v) else none

/-- A number -128 to 127 (R243). -/
def toSimm8 (v : Int) : Option Byte := if -128 ≤ v ∧ v ≤ 127 then some (BitVec.ofInt 8 v) else none

/-- A count 1 to 8, stored less one (R243). -/
def toIii (v : Int) : Option (Fin 8) := if 1 ≤ v ∧ v ≤ 8 then some (Fin.ofNat 8 (v - 1).toNat) else none

/-- A two-register form on R0 to R7. -/
def lowPair (make : LowReg → LowReg → Instr) (x y : Reg) : Option Instr :=
  match toLow x, toLow y with
  | some a, some b => some (make a b)
  | _, _ => none

/-- A shift by an immediate count. -/
def lowShift (make : LowReg → Fin 8 → Instr) (x : Reg) (v : Int) : Option Instr :=
  match toLow x, toIii v with
  | some a, some i => some (make a i)
  | _, _ => none

/-- The nine encodings of `mov` (R243). -/
def assembleMov (c : Cond) (f : FlagUpdate) : List Operand → Option Instr
  | [.reg x, .reg y] => some (.movReg c f x y)
  | [.reg x, .mem y] => some (.load c f x y)
  | [.mem x, .reg y] => some (.store c f x y)
  | [.flagX, .bit x b] => some (.movXBit c f x b)
  | [.bit x b, .flagX] => some (.movBitX c f x b)
  | [.bit x b, .num v] => if v = 0 then some (.clearBit c f x b) else if v = 1 then some (.setBit c f x b) else none
  | [.lowR0, .num v] => (toImm8 v).map (.movLow c f)
  | [.highR0, .num v] => (toImm8 v).map (.movHigh c f)
  | _ => none

/-- The three encodings of `add`; `add R15, 1` is the S8 form, never the reserved one (R243). -/
def assembleAdd (c : Cond) (f : FlagUpdate) : List Operand → Option Instr
  | [.reg x, .reg y] => lowPair (.addReg c f) x y
  | [.reg x, .num v] =>
    if x = 15 then (toSimm8 v).map (.addPc c f) else if v = 1 then some (.inc c f x) else none
  | _ => none

/-- The two encodings of `sub`. -/
def assembleSub (c : Cond) (f : FlagUpdate) : List Operand → Option Instr
  | [.reg x, .reg y] => lowPair (.subReg c f) x y
  | [.reg x, .num v] => if v = 1 then some (.dec c f x) else none
  | _ => none

/-- The two encodings of `not`. -/
def assembleNot (c : Cond) (f : FlagUpdate) : List Operand → Option Instr
  | [.reg x] => some (.notReg c f x)
  | [.bit x b] => some (.notBit c f x b)
  | _ => none

/-- `neg`. -/
def assembleNeg (c : Cond) (f : FlagUpdate) : List Operand → Option Instr
  | [.reg x] => some (.negReg c f x)
  | _ => none

/-- A mnemonic with the one form of two registers. -/
def assemblePair (make : LowReg → LowReg → Instr) : List Operand → Option Instr
  | [.reg x, .reg y] => lowPair make x y
  | _ => none

/-- The two encodings of a shift. -/
def assembleShift (byReg : LowReg → LowReg → Instr) (byImm : LowReg → Fin 8 → Instr) : List Operand → Option Instr
  | [.reg x, .reg y] => lowPair byReg x y
  | [.reg x, .num v] => lowShift byImm x v
  | _ => none

/-- The opcode chosen from the mnemonic together with the operand forms (R243). -/
def assembleOne (c : Cond) (f : FlagUpdate) (m : Mnemonic) (ops : List Operand) : Option Instr :=
  match m with
  | .mov => assembleMov c f ops
  | .add => assembleAdd c f ops
  | .sub => assembleSub c f ops
  | .and => assemblePair (.andReg c f) ops
  | .or => assemblePair (.orReg c f) ops
  | .xor => assemblePair (.xorReg c f) ops
  | .not => assembleNot c f ops
  | .shl => assembleShift (.shlReg c f) (.shlImm c f) ops
  | .shr => assembleShift (.shrReg c f) (.shrImm c f) ops
  | .sar => assembleShift (.sarReg c f) (.sarImm c f) ops
  | .mul => assemblePair (.mulReg c f) ops
  | .div => assemblePair (.divReg c f) ops
  | .imul => assemblePair (.imulReg c f) ops
  | .idiv => assemblePair (.idivReg c f) ops
  | .neg => assembleNeg c f ops

/-- The first word of a generated condition, `al nf mov X, R14:<bit>` (R244). -/
def copyToX (bit : BitNo) : Instr := .movXBit .al .nf 14 bit

/-- One source instruction as one instruction, or as two under a generated condition (R244). -/
def assemble (src : Source) : Option (List Instr) :=
  match condMeaning src.cond with
  | .hardware c => (assembleOne c src.flags src.mnemonic src.operands).map (fun i => [i])
  | .generated bit c => (assembleOne c src.flags src.mnemonic src.operands).map (fun i => [copyToX bit, i])

/-- The words of one source instruction (R244). -/
def assembleWords (src : Source) : Option (List Word) := (assemble src).map (fun is => is.map encode)

/-- The mnemonic and operands of an instruction; the reserved rows have none (R240, R243). -/
def operandsOf : Instr → Option (Mnemonic × List Operand)
  | .movReg _ _ x y => some (.mov, [.reg x, .reg y])
  | .load _ _ x y => some (.mov, [.reg x, .mem y])
  | .store _ _ x y => some (.mov, [.mem x, .reg y])
  | .movXBit _ _ x b => some (.mov, [.flagX, .bit x b])
  | .reservedOp4 _ _ _ => none
  | .movBitX _ _ x b => some (.mov, [.bit x b, .flagX])
  | .clearBit _ _ x b => some (.mov, [.bit x b, .num 0])
  | .setBit _ _ x b => some (.mov, [.bit x b, .num 1])
  | .notBit _ _ x b => some (.not, [.bit x b])
  | .movLow _ _ imm => some (.mov, [.lowR0, .num imm.toNat])
  | .movHigh _ _ imm => some (.mov, [.highR0, .num imm.toNat])
  | .addPc _ _ simm => some (.add, [.reg 15, .num simm.toInt])
  | .addReg _ _ x y => some (.add, [.reg (x.castLE (by decide)), .reg (y.castLE (by decide))])
  | .subReg _ _ x y => some (.sub, [.reg (x.castLE (by decide)), .reg (y.castLE (by decide))])
  | .andReg _ _ x y => some (.and, [.reg (x.castLE (by decide)), .reg (y.castLE (by decide))])
  | .orReg _ _ x y => some (.or, [.reg (x.castLE (by decide)), .reg (y.castLE (by decide))])
  | .xorReg _ _ x y => some (.xor, [.reg (x.castLE (by decide)), .reg (y.castLE (by decide))])
  | .shlReg _ _ x y => some (.shl, [.reg (x.castLE (by decide)), .reg (y.castLE (by decide))])
  | .shrReg _ _ x y => some (.shr, [.reg (x.castLE (by decide)), .reg (y.castLE (by decide))])
  | .sarReg _ _ x y => some (.sar, [.reg (x.castLE (by decide)), .reg (y.castLE (by decide))])
  | .mulReg _ _ x y => some (.mul, [.reg (x.castLE (by decide)), .reg (y.castLE (by decide))])
  | .divReg _ _ x y => some (.div, [.reg (x.castLE (by decide)), .reg (y.castLE (by decide))])
  | .imulReg _ _ x y => some (.imul, [.reg (x.castLE (by decide)), .reg (y.castLE (by decide))])
  | .idivReg _ _ x y => some (.idiv, [.reg (x.castLE (by decide)), .reg (y.castLE (by decide))])
  | .shlImm _ _ x i => some (.shl, [.reg (x.castLE (by decide)), .num (i.val + 1)])
  | .shrImm _ _ x i => some (.shr, [.reg (x.castLE (by decide)), .num (i.val + 1)])
  | .sarImm _ _ x i => some (.sar, [.reg (x.castLE (by decide)), .num (i.val + 1)])
  | .reservedIncPc _ _ => none
  | .inc _ _ x => some (.add, [.reg x, .num 1])
  | .dec _ _ x => some (.sub, [.reg x, .num 1])
  | .notReg _ _ x => some (.not, [.reg x])
  | .negReg _ _ x => some (.neg, [.reg x])

/-- The source form of an instruction (R240). -/
def disassemble (i : Instr) : Option Source :=
  (operandsOf i).map (fun p => ⟨condNameOf i.cond, i.flagUpdate, p.1, p.2⟩)

end Sys2Proof.Machine
end

