-- ==== Sys2Proof/Safety.lean ====
section
/-! DEFINITION. The terms claims are stated in: what a run must keep, what an instruction's result changes and what it
leaves unchanged, and which instructions the CPU reacts to. -/

namespace Sys2Proof.Machine

/-- R[k][i], read as an instruction of context k would read x[i] (10_state R27). -/
def State.regOf (s : State) (k : Context) (i : Reg) : Word := (s.regs k).read s.cfg k i

/-- Both memories are in canonical form (log 2). -/
structure State.Canonical (s : State) : Prop where
  data : s.dataMem.wf = true
  prog : s.progMem.wf = true

/-- Every word of both address spaces reads as before. -/
structure SameMemory (s t : State) : Prop where
  data : ∀ a : Word, t.dataWord a = s.dataWord a
  prog : ∀ a : Word, t.progWord a = s.progWord a

/-- No device access and no draw happened. -/
structure NoDeviceNoDraw (s t : State) : Prop where
  ioLog : t.ioLog = s.ioLog
  draws : t.draws = s.draws

/-- The flag word after an instruction that left `base` in R14 before its flag update (40_execution_model R130, R134):
C, Z, V and S are the flag inputs under `fl` and kept under `nf`; X, the general bits, R, H and I are kept; A, L and G are
kept by `nf` where they are stored, and follow C, Z, S and V after `fl` and wherever they are live. -/
structure FlagsAfter (cfg : Config) (f : FlagUpdate) (fl : FlagInputs) (base new : Word) : Prop where
  c : new.getLsbD 0 =
    if f = .nf then base.getLsbD 0 else fl.c.getD (if cfg.flagOtherwise = .keep then base.getLsbD 0 else false)
  z : new.getLsbD 1 = if f = .nf then base.getLsbD 1 else fl.z
  x : new.getLsbD 2 = base.getLsbD 2
  v : new.getLsbD 3 =
    if f = .nf then base.getLsbD 3 else fl.v.getD (if cfg.flagOtherwise = .keep then base.getLsbD 3 else false)
  s : new.getLsbD 4 = if f = .nf then base.getLsbD 4 else fl.s
  upper : ∀ n, 8 ≤ n → n ≤ 14 → new.getLsbD n = base.getLsbD n
  algKept : f = .nf → cfg.algMode = .stored → ∀ n, 5 ≤ n → n ≤ 7 → new.getLsbD n = base.getLsbD n
  algA : f = .fl ∨ cfg.algMode = .live → new.getLsbD 5 = (new.getLsbD 0 && !new.getLsbD 1)
  algL : f = .fl ∨ cfg.algMode = .live → new.getLsbD 6 = (new.getLsbD 4 ^^ new.getLsbD 3)
  algG : f = .fl ∨ cfg.algMode = .live → new.getLsbD 7 = (!new.getLsbD 1 && (new.getLsbD 4 == new.getLsbD 3))

/-- The set that was not active is as before, but for the cause bit, cleared by an entry to the interrupt context by
program (10_state R23, 60_exceptions R267, R268). -/
structure OtherSetKept (s t : State) : Prop where
  gpr : ∀ k, k ≠ s.K → (t.regs k).gpr = (s.regs k).gpr
  pc : ∀ k, k ≠ s.K → (t.regs k).pc = (s.regs k).pc
  fg : ∀ k, k ≠ s.K → ∀ n, n < 15 →
    (t.regs k).fg.getLsbD n = if n = 14 ∧ k = .interrupt ∧ t.K = .interrupt then false else (s.regs k).fg.getLsbD n

/-- What an instruction leaves whose rule is "the destination takes `r.res`, the flag inputs are `r.flags`": the whole of
lines 7 to 9 of the step for the destination Rd (40_execution_model R124, R126 to R130, R135, R136), and its frame. -/
structure RegResult (c : Cond) (f : FlagUpdate) (d : Reg) (r : Computed) (halts : Bool) (s t : State) : Prop where
  /-- R0 to R13 and R15: only Rd, and not under `no`; with d = 15 this is the branch. -/
  regs : ∀ i : Reg, i.val ≠ 14 → t.regOf s.K i = if i = d ∧ c ≠ .no then r.res else s.regOf s.K i
  /-- R14: the written word or the old one, then the flag update. -/
  flags : FlagsAfter s.cfg f r.flags (if d.val = 14 ∧ c ≠ .no then r.res else s.regOf s.K 14) (t.regOf s.K 14)
  /-- K follows bit 15 of a written R14. -/
  context : t.K = if d.val = 14 ∧ c ≠ .no then Context.ofBit r.res.msb else s.K
  others : OtherSetKept s t
  halted : t.halted = (halts || s.halted)
  memory : SameMemory s t
  cfg : t.cfg = s.cfg
  inputs : t.inputs = s.inputs
  held : t.held = s.held

/-- What `mov X, Rx:Imm4` leaves: bit 2 of R14 takes `b` unless the condition is `no`, then the flag update
(42_bit_instructions R170, 40_execution_model R135); everything else is kept. -/
structure XResult (c : Cond) (f : FlagUpdate) (b : Bool) (fl : FlagInputs) (s t : State) : Prop where
  regs : ∀ i : Reg, i.val ≠ 14 → t.regOf s.K i = s.regOf s.K i
  flags : ∃ base : Word,
    (∀ n, n < 15 → base.getLsbD n = if n = 2 ∧ c ≠ .no then b else (s.regOf s.K 14).getLsbD n) ∧
    FlagsAfter s.cfg f fl base (t.regOf s.K 14)
  context : t.K = s.K
  others : ∀ k, k ≠ s.K → t.regs k = s.regs k
  halted : t.halted = s.halted
  memory : SameMemory s t
  cfg : t.cfg = s.cfg
  inputs : t.inputs = s.inputs
  held : t.held = s.held

/-- What a store leaves outside memory: no register is written, R14 has only its flag update
(41_mov_register_memory R162). -/
structure FlagsOnly (f : FlagUpdate) (fl : FlagInputs) (s t : State) : Prop where
  regs : ∀ i : Reg, i.val ≠ 14 → t.regOf s.K i = s.regOf s.K i
  flags : FlagsAfter s.cfg f fl (s.regOf s.K 14) (t.regOf s.K 14)
  context : t.K = s.K
  others : ∀ k, k ≠ s.K → t.regs k = s.regs k
  halted : t.halted = s.halted
  prog : ∀ a : Word, t.progWord a = s.progWord a
  cfg : t.cfg = s.cfg
  inputs : t.inputs = s.inputs
  held : t.held = s.held
  draws : t.draws = s.draws

/-- `t` is the reset state of the processor over the memory of `s` (10_state R48, 60_exceptions R275, 70 R300, R303). -/
structure IsProcessorReset (s t : State) : Prop where
  context : t.K = .normal
  gpr : ∀ (k : Context) (i : Reg), i.val < 14 → t.regOf k i = 0#16
  fg : ∀ k : Context, (t.regs k).fg = 0#15
  pc : ∀ k : Context, (t.regs k).pc = 0#16
  halted : t.halted = false
  memory : SameMemory s t
  cfg : t.cfg = s.cfg
  io : NoDeviceNoDraw s t

/-- The instruction moves a 1 to bit `b` of R14 by `mov R14:b, 1` or by `mov R14:b, X` with X = 1, and its condition holds
and is not `no` (60_exceptions R275, R276). -/
def movesOneToFG (b : BitNo) (i : Instr) (s : State) : Bool :=
  match i with
  | .setBit c _ x n => condHolds c s.fg && decide (c ≠ .no) && decide (x = 14) && decide (n = b)
  | .movBitX c _ x n => condHolds c s.fg && decide (c ≠ .no) && decide (x = 14) && decide (n = b) && s.flagX
  | _ => false

/-- The CPU reacts with a soft reset (60_exceptions R275). -/
def asksSoftReset (i : Instr) (s : State) : Bool := movesOneToFG 12 i s

/-- The CPU reacts with a halt (60_exceptions R276). -/
def asksHalt (i : Instr) (s : State) : Bool := movesOneToFG 13 i s

/-- The instruction is a store (20_memory R65). -/
def isStore : Instr → Bool
  | .store _ _ _ _ => true
  | _ => false

/-- The instruction divides and the spec leaves its quotient open, in this state (46_multiply_divide R224). -/
def isOpenDivision (i : Instr) (s : State) : Bool :=
  match i with
  | .divReg _ _ _ y => decide (s.x (low y) = 0#16)
  | .idivReg _ _ x y =>
    decide (s.x (low y) = 0#16) ||
      (decide (s.cfg.idivOverflow = .asDivZero) && decide (s.x (low x) = 0x8000#16) && decide (s.x (low y) = 0xFFFF#16))
  | _ => false

/-- The instruction is a load (20_memory R65). -/
def isLoad : Instr → Bool
  | .load _ _ _ _ => true
  | _ => false

/-- A 16-bit result with z and s by 40_execution_model R131 and the c and v of its rule, `none` for "0 (otherwise)". -/
def wordResult (res : Word) (c v : Option Bool) : Computed :=
  ⟨res, { c := c, z := decide (res = 0#16), v := v, s := res.msb }⟩

/-- A shift's result: z and s by R131, c the last bit moved out, v 0 (otherwise) (45_shifts R210). -/
def wordResultOf (res : Word) (c : Bool) : Computed := wordResult res (some c) none

/-- A register whose bit `b` was replaced by `v`, with the flag inputs of the one-bit result `v` (R126, R131). -/
def bitResult (res : Word) (v : Bool) : Computed := ⟨res, { c := none, z := !v, v := none, s := v }⟩

/-- `res` is `old` with bit `b` replaced by `v` (R126). -/
def IsBitReplaced (res old : Word) (b : BitNo) (v : Bool) : Prop :=
  ∀ n, n < 16 → res.getLsbD n = if n = b.val then v else old.getLsbD n

/-- c of Sub(a, b) under either SUB_C (R132). -/
def borrowOf (cfg : Config) (a b : Word) : Bool :=
  if cfg.subC = .borrow then decide (a.toNat < b.toNat) else decide (b.toNat ≤ a.toNat)

/-- The word lies in a row of mask 0x0F00 with the quartets w[7:4] = y and w[3:0] = x: layouts RR4 and BI4 (30_encoding R92). -/
structure WordRR4 (w pattern : Word) (y x : Fin 16) : Prop where
  row : w &&& 0x0F00#16 = pattern
  y : highQuartet w = y
  x : lowQuartet w = x

/-- The word lies in a row of mask 0x0F00 with the byte w[7:0] = b: layouts U8 and S8 (30_encoding R92). -/
structure WordB8 (w pattern : Word) (b : Byte) : Prop where
  row : w &&& 0x0F00#16 = pattern
  b : byteField w = b

/-- The word lies in a row of mask 0x0FC0 with w[5:3] = y and w[2:0] = x: layouts RR3 and RI3 (30_encoding R92). -/
structure WordRR3 (w pattern : Word) (y x : Fin 8) : Prop where
  row : w &&& 0x0FC0#16 = pattern
  y : highTriple w = y
  x : lowTriple w = x

/-- The word lies in a row of mask 0x0FF0 with w[3:0] = x: layout R4 (30_encoding R92). -/
structure WordR4 (w pattern : Word) (x : Fin 16) : Prop where
  row : w &&& 0x0FF0#16 = pattern
  x : lowQuartet w = x

/-- The instruction draws a value in this state: a load from a device (20_memory R63) or an open division (R224). -/
def drawsAValue (i : Instr) (s : State) : Bool :=
  match i with
  | .load _ _ _ y => s.isIo (s.x y)
  | _ => isOpenDivision i s

/-- Bit `b` of R14 replaced by `v`, with the flag inputs of the one-bit result (40_execution_model R126, R131). -/
def r14BitResult (s : State) (b : BitNo) (v : Bool) : Computed := bitResult (putBit (s.x 14) b.val v) v

/-- The word an instruction gives R14 and its flag inputs, if R14 is its destination: every form that can name R14
(40_execution_model R127). -/
def r14Result (i : Instr) (s : State) : Option Computed :=
  match i with
  | .movReg _ _ x y => if x = 14 then some (wordResult (s.x y) none none) else none
  | .load _ _ x y => if x = 14 then some (wordResult (s.loadValue (s.x y)) none none) else none
  | .movBitX _ _ x b => if x = 14 then some (r14BitResult s b s.flagX) else none
  | .clearBit _ _ x b => if x = 14 then some (r14BitResult s b false) else none
  | .setBit _ _ x b => if x = 14 then some (r14BitResult s b true) else none
  | .notBit _ _ x b => if x = 14 then some (r14BitResult s b (!s.xBit 14 b)) else none
  | .inc _ _ x =>
    if x = 14 then
      some (wordResult (s.x 14 + 1#16) (some (decide (s.x 14 = 0xFFFF#16))) (some (decide (s.x 14 = 0x7FFF#16))))
    else none
  | .dec _ _ x =>
    if x = 14 then
      some (wordResult (s.x 14 - 1#16) (some (borrowOf s.cfg (s.x 14) 1#16)) (some (decide (s.x 14 = 0x8000#16))))
    else none
  | .notReg _ _ x => if x = 14 then some (wordResult (~~~(s.x 14)) none none) else none
  | .negReg _ _ x =>
    if x = 14 then
      if s.cfg.negMode = .twosComplement then
        some (wordResult (-(s.x 14)) (some (borrowOf s.cfg 0#16 (s.x 14))) (some (decide (s.x 14 = 0x8000#16))))
      else some (wordResult (swapBytes (s.x 14)) none none)
    else none
  | _ => none

/-- What an executing instruction writes to R14, `none` where its condition fails, is `no`, or R14 is not its destination
(40_execution_model R123, R124, R127). -/
def writesR14 (i : Instr) (s : State) : Option Computed :=
  if condHolds i.cond s.fg = true ∧ i.cond ≠ .no then r14Result i s else none

/-- The interrupt signal stays 1 for ever, no reset comes, and I of the normal set is 1 (60_exceptions R264). -/
structure SignalHeldHigh (s : State) : Prop where
  inputs : s.inputs = []
  held : s.held = ⟨true, false⟩
  enabled : s.normal.fg.getLsbD 14 = true

/-- A run is safe at a state when the step from it has a successor (93 part 1: a refusal is a state without one). -/
def State.SafeStep (s : State) : Prop := ∃ t, step s = .next t

end Sys2Proof.Machine
end

