-- ==== Sys2Proof/Certificates/Slice0/Obligations.lean ====
section
/-! DEFINITION. The statements for the provers. Where a statement names a rule that spec/ marks [decision: see D<n>] or
[derived], the choice is the spec's own and its basis is 'derived' (log 5); where it names a log entry, the choice is the model's. -/

section Statements
open Sys2Proof Sys2Proof.Machine

/-! ### Encoding and the assembler -/

/-- Decoding the word of a well-formed instruction gives it back, every operand at every value, and no further word is used
(R90, R92, R95). -/
def Obligations.DecodeOfEncode : Prop :=
  ∀ (i : Instr) (rest : List Word), i.wellFormed = true →
    decodeWord (encode i) = i ∧ decode (encode i :: rest) = .ok (i, rest)

/-- Every one of the 65536 words decodes to a well-formed term whose encoding it is: no bit of a word is dropped. -/
def Obligations.EncodeOfDecode : Prop :=
  ∀ w : Word, (decodeWord w).wellFormed = true ∧ encode (decodeWord w) = w

/-- The prefix procedure of R94 reads every word as the one row of R95's masks and patterns that it matches: no word matches two
rows, but for the reserved words of row 27, which R98 takes out of it. -/
def Obligations.DecoderFollowsTheOpcodeMap : Prop :=
  (∀ w : Word, firstRow opcodeMap w = some (decodeWord w).row) ∧
  (∀ (r r' : OpcodeRow) (w : Word), r ∈ opcodeMap → r' ∈ opcodeMap → r.matchesWord w = true → r'.matchesWord w = true →
    r = r' ∨ (r.number = 31 ∧ r'.number = 27) ∨ (r.number = 27 ∧ r'.number = 31))

/-- The reserved words are opcode 0100 (R97) and `add Rx, 1` with x = 15 (R98), and no others. -/
def Obligations.ReservedWordsAreExactly : Prop :=
  ∀ w : Word, (decodeWord w).isReserved = true ↔ w &&& 0x0F00#16 = 0x0400#16 ∨ w &&& 0x0FFF#16 = 0x0FCF#16

/-- In every word, whatever its layout, w[15:13] is the condition's code and w[12] is the f bit: 0 is nf, 1 is fl (R91). -/
def Obligations.HeaderFieldsOfEveryWord : Prop :=
  ∀ w : Word, condCode (decodeWord w).cond = w.extractLsb' 13 3 ∧
    ((decodeWord w).flagUpdate = .fl ↔ w.getLsbD 12 = true)

/-- Words of 95_test_vectors section 2.12, one or more of each layout. -/
def Obligations.SampleWordsDecode : Prop :=
  decodeWord 0x0000#16 = .movReg .al .nf 0 0 ∧ decodeWord 0x7123#16 = .load .cs .fl 3 2 ∧
  decodeWord 0xD2F0#16 = .store .xc .fl 0 15 ∧ decodeWord 0xC8A7#16 = .notBit .xc .nf 7 10 ∧
  decodeWord 0xB6C9#16 = .clearBit .xs .fl 9 12 ∧ decodeWord 0x5A80#16 = .movHigh .ne .fl 0x80#8 ∧
  decodeWord 0x0B80#16 = .addPc .al .nf 0x80#8 ∧ decodeWord 0x3D9E#16 = .shrReg .eq .fl 6 3 ∧
  decodeWord 0x9E3A#16 = .mulReg .cc .fl 2 7 ∧ decodeWord 0x8F19#16 = .shlImm .cc .nf 1 3 ∧
  decodeWord 0x1FCE#16 = .inc .al .fl 14 ∧ decodeWord 0xFFFF#16 = .negReg .no .fl 15 ∧
  decodeWord 0xE4AB#16 = .reservedOp4 .no .nf 0xAB#8 ∧ decodeWord 0x0FCF#16 = .reservedIncPc .al .nf

/-- The assembler chooses the opcode from the mnemonic and the operand forms: every instruction that is not reserved has a
source form, and that form assembles to its one word (R240 to R243). -/
def Obligations.AssembleOfDisassemble : Prop :=
  ∀ i : Instr, i.wellFormed = true → i.isReserved = false →
    ∃ src, disassemble i = some src ∧ assembleWords src = some [encode i]

/-- The words of the source's examples: "pl nf sub R1, R2" and "mi nf add R1, R2" (R246). -/
def Obligations.WorkedExpansionsOfGeneratedConditions : Prop :=
  assembleWords ⟨.pl, .nf, .sub, [.reg 1, .reg 2]⟩ = some [0x034E#16, 0xCC51#16] ∧
  assembleWords ⟨.mi, .nf, .add, [.reg 1, .reg 2]⟩ = some [0x034E#16, 0xAC11#16]

/-- The ten generated conditions under their eighteen names, each with the bit of R14 it tests and whether it asks for 1 (R244):
the assembler gives two words, the first 0x030E + 16 * bit, the second the instruction with condition xs or xc and the f written.
The first word always executes, copies that bit to X and changes nothing else, and the second word's condition then holds
exactly when the bit was as the name asks (R245). -/
def Obligations.GeneratedConditionTestsItsFlag : Prop :=
  ∀ (name : CondName) (bit : BitNo) (set : Bool),
    (name, bit, set) ∈ ([(.hi, 5, true), (.as', 5, true), (.ls, 5, false), (.ac, 5, false), (.ge, 6, false), (.lc, 6, false),
      (.lt, 6, true), (.ll, 6, true), (.gt, 7, true), (.gs, 7, true), (.le, 7, false), (.gc, 7, false), (.vc, 3, false),
      (.vs, 3, true), (.pl, 4, false), (.sc, 4, false), (.mi, 4, true), (.ss, 4, true)] : List (CondName × BitNo × Bool)) →
    (∀ (f : FlagUpdate) (m : Mnemonic) (ops : List Operand),
      assemble ⟨name, f, m, ops⟩ =
        (assembleOne (if set then .xs else .xc) f m ops).map (fun i => [copyToX bit, i])) ∧
    (∀ (f : FlagUpdate) (m : Mnemonic) (ops : List Operand) (i : Instr),
      assembleOne (if set then .xs else .xc) f m ops = some i →
        i.cond = (if set then .xs else .xc) ∧ i.flagUpdate = f) ∧
    encode (copyToX bit) = BitVec.ofNat 16 (0x030E + 16 * bit.val) ∧
    ∀ s : State, ∃ t, exec (copyToX bit) s = .next t ∧ t.flagX = (s.regOf s.K 14).getLsbD bit.val ∧
      (condHolds (if set then .xs else .xc) t.fg = true ↔ (s.regOf s.K 14).getLsbD bit.val = set) ∧
      (∀ i : Reg, i.val ≠ 14 → t.regOf s.K i = s.regOf s.K i) ∧
      (∀ n, n ≠ 2 → (t.regOf s.K 14).getLsbD n = (s.regOf s.K 14).getLsbD n) ∧
      (∀ k, k ≠ s.K → t.regs k = s.regs k) ∧ t.K = s.K ∧ t.halted = s.halted ∧ SameMemory s t ∧ NoDeviceNoDraw s t

/-! ### The step -/

/-- A step runs the decoded instruction: when no reset, halt, interrupt or device intervenes, the word at R15 of the active
set is decoded and executed in the state with that R15 advanced modulo 65536, one sample of the inputs used up and everything
else as before; where its condition fails that state is the whole outcome (R120, R121, R123). One sample a step is the
model's choice (log 4). -/
def Obligations.StepRunsTheFetchedInstruction : Prop :=
  ∀ s : State, s.lines.reset = false → s.halted = false → s.takesInterrupt s.lines.irq = false →
    s.fetchIsIo (s.regs s.K).pc = false →
    ∃ u, step s = exec (decodeWord (s.fetchWord (s.regs s.K).pc)) u ∧
      (condHolds (decodeWord (s.fetchWord (s.regs s.K).pc)).cond s.fg = false → step s = .next u) ∧
      u.K = s.K ∧ (u.regs s.K).pc = (s.regs s.K).pc + 1#16 ∧ (u.regs s.K).gpr = (s.regs s.K).gpr ∧
      (u.regs s.K).fg = (s.regs s.K).fg ∧ (∀ k, k ≠ s.K → u.regs k = s.regs k) ∧
      u.halted = false ∧ u.dataMem = s.dataMem ∧ u.progMem = s.progMem ∧ u.cfg = s.cfg ∧
      u.ioLog = s.ioLog ∧ u.draws = s.draws ∧ u.inputs = s.inputs.tail ∧ u.held = s.held

/-- The interrupt entry: with irq = 1, K = 0 and I of the normal set 1, the step switches to the interrupt set, writes 1 to
bit 14 of its R14 and nothing else, and runs the instruction at that set's R15 (R263, R265). -/
def Obligations.StepEntersTheInterruptContext : Prop :=
  ∀ s : State, s.lines = ⟨true, false⟩ → s.halted = false → s.K = .normal → s.normal.fg.getLsbD 14 = true →
    s.fetchIsIo s.interrupt.pc = false →
    ∃ u, step s = exec (decodeWord (s.fetchWord s.interrupt.pc)) u ∧
      u.K = .interrupt ∧ u.interrupt.pc = s.interrupt.pc + 1#16 ∧ u.interrupt.gpr = s.interrupt.gpr ∧
      (∀ n, n < 15 → u.interrupt.fg.getLsbD n = if n = 14 then true else s.interrupt.fg.getLsbD n) ∧
      u.normal = s.normal ∧ u.halted = false ∧ u.dataMem = s.dataMem ∧ u.progMem = s.progMem ∧ u.cfg = s.cfg ∧
      u.ioLog = s.ioLog ∧ u.draws = s.draws ∧ u.inputs = s.inputs.tail ∧ u.held = s.held

/-- A stuck-high signal with I = 1 starves the normal context for ever (R263, R264): while irq stays 1 (the held level of log 4)
and I of the normal set is 1, every step runs the instruction at the interrupt set's R15, so that after a return the interrupt is
taken again before any instruction of the normal context; and unless that instruction is a soft reset, the step keeps the whole
normal set and what makes it so. -/
def Obligations.HeldSignalStarvesTheNormalContext : Prop :=
  ∀ s : State, SignalHeldHigh s →
    (s.halted = false → s.fetchIsIo s.interrupt.pc = false →
      ∃ u, step s = exec (decodeWord (s.fetchWord s.interrupt.pc)) u ∧ u.K = .interrupt ∧
        u.interrupt.pc = s.interrupt.pc + 1#16 ∧ u.normal = s.normal) ∧
    (∀ t, step s = .next t →
      s.halted = true ∨ asksSoftReset (decodeWord (s.fetchWord s.interrupt.pc)) (s.sampleInterrupt true) = false →
      t.normal = s.normal ∧ SignalHeldHigh t)

/-- The interrupt signal has no effect on a step while K = 1 or while I of the normal set is 0: the step answers what it would
answer with irq at any other level (R262, R263, R270). -/
def Obligations.MaskedInterruptIsIgnored : Prop :=
  ∀ (s : State) (b : Bool), s.K = .interrupt ∨ s.normal.fg.getLsbD 14 = false →
    step s = step { s with inputs := ⟨b, s.lines.reset⟩ :: s.inputs.tail }

/-- A halted processor does nothing, whatever the interrupt signal, until the reset input comes (R45, R276). -/
def Obligations.HaltedProcessorDoesNothing : Prop :=
  ∀ s : State, s.lines.reset = false → s.halted = true → step s = .next { s with inputs := s.inputs.tail }

/-- The reset input wins over everything in its step, halt included, and gives the reset state over unchanged memory (R300,
R303). That nothing else happens in that step is DEDUCED (log 20). -/
def Obligations.ResetInputWins : Prop :=
  ∀ s : State, s.lines.reset = true →
    ∃ t, step s = .next t ∧ IsProcessorReset s t ∧ t.inputs = s.inputs.tail ∧ t.held = s.held

/-- A fetch from IO_REGION in the one space is refused by name (R62; DEDUCED for `unified` alone, log 10). -/
def Obligations.FetchFromADeviceIsRefused : Prop :=
  ∀ s : State, s.lines.reset = false → s.halted = false → s.cfg.addressSpace = .unified →
    s.isIo s.nextFetchAddress = true → step s = .refused (.fetchFromIoRegion s.nextFetchAddress)

/-- A word placed by `withFetchWord` is the instruction the next step runs, and no register was changed by placing it (log 15). -/
def Obligations.PlacedWordRunsNext : Prop :=
  ∀ (s : State) (w : Word),
    step (s.withFetchWord 16 w.toNat) =
      exec (decodeWord w)
        (((s.withFetchWord 16 w.toNat).consumeInputs.sampleInterrupt s.lines.irq).advancePc) ∧
    (s.withFetchWord 16 w.toNat).K = s.K ∧ ∀ k, (s.withFetchWord 16 w.toNat).regs k = s.regs k

/-- Right after reset every register of both sets is 0, K is 0, the processor runs, the interrupt input is disabled and the
first fetch is from address 0 in the normal context (R48). -/
def Obligations.ResetState : Prop :=
  State.reset.K = .normal ∧ State.reset.halted = false ∧
  (∀ (k : Context) (n : Nat) (h : n < 14), (State.reset.regs k).gpr[n] = 0#16) ∧
  (∀ k, (State.reset.regs k).fg = 0#15) ∧ (∀ k, (State.reset.regs k).pc = 0#16) ∧
  (∀ i : Reg, State.reset.x i = 0#16) ∧ (∀ irq, State.reset.takesInterrupt irq = false) ∧
  State.reset.nextFetchAddress = 0#16

/-- A step that is refused is one of four: a fetch from a device, refused by R62, in the one space alone, which is the model's
reading of R60 and R66 (DEDUCED, log 10); a reserved word (R97, R98; DEDUCED for the condition, log 11); or a division under
DIV_ZERO = refuse (R224); the last three only where the condition holds (R123). -/
def Obligations.StepRefusesOnlyWhereTheSpecDoes : Prop :=
  ∀ (s : State) (r : Refusal), step s = .refused r →
    s.lines.reset = false ∧ s.halted = false ∧
    ((s.cfg.addressSpace = .unified ∧ s.isIo s.nextFetchAddress = true ∧ r = .fetchFromIoRegion s.nextFetchAddress) ∨
     (condHolds (decodeWord (s.fetchWord s.nextFetchAddress)).cond (s.sampleInterrupt s.lines.irq).fg = true ∧
      ((r = .reservedOpcode0100 ∧ ∃ c f p, decodeWord (s.fetchWord s.nextFetchAddress) = .reservedOp4 c f p) ∨
       (r = .reservedIncrementOfR15 ∧ ∃ c f, decodeWord (s.fetchWord s.nextFetchAddress) = .reservedIncPc c f) ∨
       (r = .divisionRefused ∧ s.cfg.divZero = .refuse ∧
        isOpenDivision (decodeWord (s.fetchWord s.nextFetchAddress)) (s.sampleInterrupt s.lines.irq) = true))))

/-- The stuck loop `al nf sub R15, 1`, word 0x0FDF: each step gives the same state back, less one sample of the inputs (log 4);
in the interrupt context no interrupt signal ends it; in the normal context a taken interrupt leaves R15 at the same
instruction (R139). -/
def Obligations.StuckLoop : Prop :=
  ∀ s : State, s.lines.reset = false → s.halted = false → s.fetchIsIo (s.regs s.K).pc = false →
    s.fetchWord (s.regs s.K).pc = 0x0FDF#16 →
    (s.takesInterrupt s.lines.irq = false → step s = .next { s with inputs := s.inputs.tail }) ∧
    (s.K = .interrupt → step s = .next { s with inputs := s.inputs.tail }) ∧
    (s.takesInterrupt s.lines.irq = true →
      (s.sampleInterrupt s.lines.irq).K = .interrupt ∧ (s.sampleInterrupt s.lines.irq).normal.pc = s.normal.pc)

/-! ### Invariants and rules of the whole machine -/

/-- Every step keeps both memories in canonical form: addresses strictly rising and inside the address space (R61; the form
is the model's, log 2). -/
def Obligations.StepKeepsMemoryCanonical : Prop :=
  ∀ s t : State, s.Canonical → step s = .next t → t.Canonical

/-- Memory at reset has the canonical form (log 2). -/
def Obligations.ResetMemoryIsCanonical : Prop := State.reset.Canonical

/-- Memories in canonical form that know the same words at the same addresses are equal (log 2). -/
def Obligations.CanonicalMemoriesAreExtensional : Prop :=
  ∀ m m' : Memory, m.wf = true → m'.wf = true → (∀ a : Nat, m.read a = m'.read a) → m = m'

/-- No step changes a launch parameter (R49; log 3), and with separate spaces no step changes what any address of the program
space fetches: no self-modified program (R60, R75). -/
def Obligations.SplitProgramIsNeverWritten : Prop :=
  ∀ s t : State, step s = .next t →
    t.cfg = s.cfg ∧ (s.cfg.addressSpace = .split → ∀ a : Word, t.fetchWord a = s.fetchWord a)

/-- No instruction but one that asks for a soft reset changes a register of the set that is not active; only the cause bit of
the interrupt set is cleared, when the instruction enters that context (R23, R267, R268). -/
def Obligations.InactiveSetIsUntouched : Prop :=
  ∀ (i : Instr) (s t : State), exec i s = .next t → asksSoftReset i s = false → OtherSetKept s t

/-- No instruction reads a register of the set that is not active: with any other contents there, the instruction answers the
same, and the active set, K, halted, memory, devices and draws come out the same (R23). -/
def Obligations.InactiveSetIsNotRead : Prop :=
  ∀ (i : Instr) (s t : State) (k : Context) (r : RegSet), k ≠ s.K → exec i s = .next t →
    ∃ t', exec i (s.setRegs k r) = .next t' ∧ t'.regs s.K = t.regs s.K ∧ t'.K = t.K ∧ t'.halted = t.halted ∧
      t'.dataMem = t.dataMem ∧ t'.progMem = t.progMem ∧ t'.cfg = t.cfg ∧ t'.ioLog = t.ioLog ∧ t'.draws = t.draws

/-- An instruction halts a running processor exactly when it moves a 1 to R14:13 by `mov R14:13, 1` or `mov R14:13, X`,
executing and not under `no` (R40, R276). -/
def Obligations.HaltOnlyByTheReactingMoves : Prop :=
  ∀ (i : Instr) (s t : State), s.halted = false → exec i s = .next t → (t.halted = true ↔ asksHalt i s = true)

/-- Only a store changes a memory word, and only a load or a store reaches a device (R65). -/
def Obligations.OnlyLoadsAndStoresReachMemory : Prop :=
  ∀ (i : Instr) (s t : State), exec i s = .next t →
    (isStore i = false → SameMemory s t) ∧ (isStore i = false → isLoad i = false → t.ioLog = s.ioLog)

/-- Every instruction that is not reserved completes in every state, but for a division the spec leaves open under
DIV_ZERO = refuse (R260, R224). -/
def Obligations.EveryDefinedInstructionCompletes : Prop :=
  ∀ (i : Instr) (s : State), i.wellFormed = true → i.isReserved = false →
    s.cfg.divZero = .draw ∨ isOpenDivision i s = false → ∃ t, exec i s = .next t

/-- An instruction whose condition is false, a reserved one included, changes nothing at all (R123). -/
def Obligations.FailedConditionChangesNothing : Prop :=
  ∀ (i : Instr) (s : State), condHolds i.cond s.fg = false → exec i s = .next s

/-- Under `no` no destination is written: no register, no bit, no X, no word of memory, no K, no reset and no halt; with `nf`
R14 is unchanged too; a load still makes its read (R124, the spec's D5). Only an instruction that draws uses a draw (log 6). -/
def Obligations.NoConditionWritesNoDestination : Prop :=
  ∀ (i : Instr) (s t : State), i.cond = .no → exec i s = .next t →
    (∀ r : Reg, r.val ≠ 14 → t.regOf s.K r = s.regOf s.K r) ∧ (t.regOf s.K 14).getLsbD 2 = (s.regOf s.K 14).getLsbD 2 ∧
    (∀ n, 8 ≤ n → (t.regOf s.K 14).getLsbD n = (s.regOf s.K 14).getLsbD n) ∧
    (i.flagUpdate = .nf → t.regOf s.K 14 = s.regOf s.K 14) ∧ (∀ k, k ≠ s.K → t.regs k = s.regs k) ∧
    t.K = s.K ∧ t.halted = s.halted ∧ SameMemory s t ∧ (isLoad i = false → t.ioLog = s.ioLog) ∧
    (drawsAValue i s = false → NoDeviceNoDraw s t)

/-- The no-operations (R100): a word with `no` and `nf` that is not reserved leaves the state as it is; only a load's read from a
device or an open division, whose draws are the model's (log 6), leaves a trace, in the count of draws and, for the read, in the
record of device events (log 9). Reserved words are refused all the same. The word 0 changes nothing, which the spec derives from
R160. -/
def Obligations.NoOperationWords : Prop :=
  (∀ (w : Word) (s : State), w &&& 0xF000#16 = 0xE000#16 → (decodeWord w).isReserved = false →
    s.cfg.divZero = .draw ∨ isOpenDivision (decodeWord w) s = false →
    ∃ t, exec (decodeWord w) s = .next t ∧ (drawsAValue (decodeWord w) s = false → t = s) ∧
      t = { s with draws := t.draws, ioLog := t.ioLog } ∧ (isLoad (decodeWord w) = false → t.ioLog = s.ioLog)) ∧
  (∀ (w : Word) (s : State), w &&& 0xF000#16 = 0xE000#16 → (decodeWord w).isReserved = true →
    ∃ r, exec (decodeWord w) s = .refused r) ∧
  (∀ s : State, exec (decodeWord 0#16) s = .next s)

/-- The condition codes test Z, C and X of the active set and nothing else (R122). -/
def Obligations.ConditionsTestTheirFlag : Prop :=
  ∀ (c : Cond) (s : State), condHolds c s.fg =
    match c with
    | .al => true
    | .eq => (s.x 14).getLsbD 1
    | .ne => !(s.x 14).getLsbD 1
    | .cs => (s.x 14).getLsbD 0
    | .cc => !(s.x 14).getLsbD 0
    | .xs => (s.x 14).getLsbD 2
    | .xc => !(s.x 14).getLsbD 2
    | .no => true

/-- A read of R14 has K in bit 15; under ALG_MODE = live its A, L and G follow its C, Z, S and V in every state, and it reads
0x0080 after reset (R24, R27, R134). -/
def Obligations.ReadsOfTheFlagRegister : Prop :=
  (∀ (s : State) (k : Context), (s.regOf k 14).getLsbD 15 = k.bit) ∧
  (∀ (s : State) (k : Context), s.cfg.algMode = .live →
    (s.regOf k 14).getLsbD 5 = ((s.regOf k 14).getLsbD 0 && !(s.regOf k 14).getLsbD 1) ∧
    (s.regOf k 14).getLsbD 6 = ((s.regOf k 14).getLsbD 4 ^^ (s.regOf k 14).getLsbD 3) ∧
    (s.regOf k 14).getLsbD 7 = (!(s.regOf k 14).getLsbD 1 && ((s.regOf k 14).getLsbD 4 == (s.regOf k 14).getLsbD 3))) ∧
  (∀ cfg : Config, cfg.algMode = .live → ({ State.reset with cfg := cfg } : State).x 14 = 0x0080#16)

/-! ### Moves and memory -/

/-- `mov Rx, Ry` (R160): Rx takes Ry; y = 15 is the address of the next instruction, x = 15 a jump, x = 14 a write of the
whole flag register. -/
def Obligations.MovRegResult : Prop :=
  ∀ (c : Cond) (f : FlagUpdate) (x y : Reg) (s : State), condHolds c s.fg = true →
    WordRR4 (encode (.movReg c f x y)) 0x0000#16 y x ∧
    ∃ t, exec (.movReg c f x y) s = .next t ∧ RegResult c f x (wordResult (s.x y) none none) false s t ∧
      NoDeviceNoDraw s t

/-- `mov Rx, [Ry]` (R161, R63): from plain memory Rx takes the data word at the address in Ry, whichever the address space; from
a device it takes a draw, nothing constraining it, and the read happens under `no` too and is recorded (log 9). -/
def Obligations.LoadResult : Prop :=
  ∀ (c : Cond) (f : FlagUpdate) (x y : Reg) (s : State), condHolds c s.fg = true →
    WordRR4 (encode (.load c f x y)) 0x0100#16 y x ∧
    (s.isIo (s.x y) = false → ∃ t, exec (.load c f x y) s = .next t ∧
      RegResult c f x (wordResult (s.dataWord (s.x y)) none none) false s t ∧ NoDeviceNoDraw s t) ∧
    (s.isIo (s.x y) = true → ∃ t v, exec (.load c f x y) s = .next t ∧ v = Config.drawWord s.draws ∧
      RegResult c f x (wordResult v none none) false s t ∧
      t.ioLog = s.ioLog ++ [.read (s.x y) v] ∧ t.draws = s.draws + 1)

/-- `mov [Rx], Ry` (R162, R64): no register is written, and the flags follow the stored word with `fl`, under `no` too. Under
`no` no store happens (R124). Otherwise, in plain memory the word at the address in Rx takes Ry and every other word is as
before, and with one space the next fetch of that address sees it, with separate spaces no fetch does (R75); to a device the
write is an event, recorded in order (log 9), and no word changes. -/
def Obligations.StoreResult : Prop :=
  ∀ (c : Cond) (f : FlagUpdate) (x y : Reg) (s : State), condHolds c s.fg = true →
    WordRR4 (encode (.store c f x y)) 0x0200#16 y x ∧
    ∃ t, exec (.store c f x y) s = .next t ∧ FlagsOnly f (wordResult (s.x y) none none).flags s t ∧
      (c = .no → (∀ a : Word, t.dataWord a = s.dataWord a) ∧ t.ioLog = s.ioLog) ∧
      (c ≠ .no → s.isIo (s.x x) = false →
        (∀ a : Word, t.dataWord a = if a = s.x x then s.x y else s.dataWord a) ∧
        (∀ a : Word, t.fetchWord a =
          if a = s.x x ∧ s.cfg.addressSpace = .unified then s.x y else s.fetchWord a) ∧
        t.ioLog = s.ioLog) ∧
      (c ≠ .no → s.isIo (s.x x) = true →
        (∀ a : Word, t.dataWord a = s.dataWord a) ∧ t.ioLog = s.ioLog ++ [.write (s.x x) (s.x y)])

/-! ### Bit instructions -/

/-- `mov X, Rx:Imm4` (R170): X takes the bit, read before the update, with `nf` and `fl` alike, and not under `no`. -/
def Obligations.MovXBitResult : Prop :=
  ∀ (c : Cond) (f : FlagUpdate) (x : Reg) (b : BitNo) (s : State), condHolds c s.fg = true →
    WordRR4 (encode (.movXBit c f x b)) 0x0300#16 b x ∧
    ∃ t, exec (.movXBit c f x b) s = .next t ∧
      XResult c f ((s.x x).getLsbD b.val)
        { c := none, z := !(s.x x).getLsbD b.val, v := none, s := (s.x x).getLsbD b.val } s t ∧
      NoDeviceNoDraw s t

/-- `mov Rx:Imm4, X` and `mov Rx:Imm4, 1` (R171, R173), where the CPU does not react: the bit takes X, read before any write, or 1. -/
def Obligations.WriteBitResult : Prop :=
  ∀ (c : Cond) (f : FlagUpdate) (x : Reg) (b : BitNo) (s : State), condHolds c s.fg = true →
    (WordRR4 (encode (.movBitX c f x b)) 0x0500#16 b x ∧
      (asksSoftReset (.movBitX c f x b) s = false → asksHalt (.movBitX c f x b) s = false →
        ∃ t res, exec (.movBitX c f x b) s = .next t ∧ IsBitReplaced res (s.x x) b s.flagX ∧
          RegResult c f x (bitResult res s.flagX) false s t ∧ NoDeviceNoDraw s t)) ∧
    (WordRR4 (encode (.setBit c f x b)) 0x0700#16 b x ∧
      (asksSoftReset (.setBit c f x b) s = false → asksHalt (.setBit c f x b) s = false →
        ∃ t res, exec (.setBit c f x b) s = .next t ∧ IsBitReplaced res (s.x x) b true ∧
          RegResult c f x (bitResult res true) false s t ∧ NoDeviceNoDraw s t))

/-- `mov Rx:Imm4, 0` and `not Rx:imm4` (R172, R174): the bit takes 0, or is inverted, in every register, R14 and R15 included;
the CPU reacts to neither (R39, R40). -/
def Obligations.ClearAndNotBitResult : Prop :=
  ∀ (c : Cond) (f : FlagUpdate) (x : Reg) (b : BitNo) (s : State), condHolds c s.fg = true →
    (WordRR4 (encode (.clearBit c f x b)) 0x0600#16 b x ∧
      ∃ t res, exec (.clearBit c f x b) s = .next t ∧ IsBitReplaced res (s.x x) b false ∧
        RegResult c f x (bitResult res false) false s t ∧ NoDeviceNoDraw s t) ∧
    (WordRR4 (encode (.notBit c f x b)) 0x0800#16 b x ∧
      ∃ t res, exec (.notBit c f x b) s = .next t ∧ IsBitReplaced res (s.x x) b (!(s.x x).getLsbD b.val) ∧
        RegResult c f x (bitResult res (!(s.x x).getLsbD b.val)) false s t ∧ NoDeviceNoDraw s t)

/-! ### Contexts, soft reset, halt -/

/-- The soft reset (R275): an executing `mov R14:12, 1`, or `mov R14:12, X` with X = 1, gives the reset state over unchanged
memory from either context. Its words are 0x07CE and 0x05CE with any condition but `no` and either f. -/
def Obligations.SoftReset : Prop :=
  (∀ (i : Instr) (s : State), asksSoftReset i s = true →
    ∃ t, exec i s = .next t ∧ IsProcessorReset s t ∧ t.inputs = s.inputs ∧ t.held = s.held) ∧
  (∀ (w : Word) (s : State), asksSoftReset (decodeWord w) s = true ↔
    condHolds (decodeWord w).cond s.fg = true ∧ w &&& 0xE000#16 ≠ 0xE000#16 ∧
      (w &&& 0x0FFF#16 = 0x07CE#16 ∨ (w &&& 0x0FFF#16 = 0x05CE#16 ∧ s.flagX = true)))

/-- The halt (R276): an executing `mov R14:13, 1`, or `mov R14:13, X` with X = 1, stores bit 13, updates the flags if `fl`, and
halts. Its words are 0x07DE and 0x05DE with any condition but `no` and either f. -/
def Obligations.Halt : Prop :=
  (∀ (i : Instr) (s : State), asksHalt i s = true →
    ∃ t res, exec i s = .next t ∧ IsBitReplaced res (s.x 14) 13 true ∧
      RegResult i.cond i.flagUpdate 14 (bitResult res true) true s t ∧ NoDeviceNoDraw s t) ∧
  (∀ (w : Word) (s : State), asksHalt (decodeWord w) s = true ↔
    condHolds (decodeWord w).cond s.fg = true ∧ w &&& 0xE000#16 ≠ 0xE000#16 ∧
      (w &&& 0x0FFF#16 = 0x07DE#16 ∨ (w &&& 0x0FFF#16 = 0x05DE#16 ∧ s.flagX = true)))

/-- Entry by program (R267, R268): in the normal context every instruction that writes a word with bit 15 set to R14, whichever
form it has, enters the interrupt context, clears the cause bit of the interrupt set and changes nothing else of it, whatever I of
the normal set is, so that the next fetch is from that set's own R15; the other written bits and the flag update go to the normal
set (R127, R135, R136: the spec's decisions D10 and D30). No other instruction enters. `mov R14:15, 1`, word 0x07FE, is one. -/
def Obligations.EntryByProgram : Prop :=
  (∀ (i : Instr) (s : State) (r : Computed), s.K = .normal → writesR14 i s = some r → r.res.msb = true →
    ∃ t, exec i s = .next t ∧ t.K = .interrupt ∧
      t.interrupt.gpr = s.interrupt.gpr ∧ t.interrupt.pc = s.interrupt.pc ∧
      (∀ n, n < 15 → t.interrupt.fg.getLsbD n = if n = 14 then false else s.interrupt.fg.getLsbD n) ∧
      t.normal.gpr = s.normal.gpr ∧ t.normal.pc = s.normal.pc ∧
      FlagsAfter s.cfg i.flagUpdate r.flags r.res (t.regOf .normal 14)) ∧
  (∀ (i : Instr) (s t : State), s.K = .normal → exec i s = .next t → t.K = .interrupt →
    ∃ r, writesR14 i s = some r ∧ r.res.msb = true) ∧
  (∀ (c : Cond) (f : FlagUpdate) (s : State), s.K = .normal → condHolds c s.fg = true → c ≠ .no →
    ∃ t, exec (.setBit c f 14 15) s = .next t ∧ t.K = .interrupt ∧ (f = .nf → t.normal = s.normal)) ∧
  decodeWord 0x07FE#16 = .setBit .al .nf 14 15

/-- Return (R269): in the interrupt context every instruction that writes a word with bit 15 clear to R14, whichever form it has,
returns: the normal set is as it was at entry, its R15 and interrupt enable included, and the interrupt set keeps its own R15; the
other written bits and the flag update go to the interrupt set (R127, R135, R136: the spec's decisions D10 and D30). No instruction
but a soft reset changes the normal set, and no other instruction returns. `mov R14:15, 0`, word 0x06FE, is one. -/
def Obligations.ReturnFromInterrupt : Prop :=
  (∀ (i : Instr) (s : State) (r : Computed), s.K = .interrupt → writesR14 i s = some r → r.res.msb = false →
    ∃ t, exec i s = .next t ∧ t.K = .normal ∧ t.normal = s.normal ∧
      t.interrupt.gpr = s.interrupt.gpr ∧ t.interrupt.pc = s.interrupt.pc ∧
      FlagsAfter s.cfg i.flagUpdate r.flags r.res (t.regOf .interrupt 14)) ∧
  (∀ (i : Instr) (s t : State), s.K = .interrupt → exec i s = .next t → asksSoftReset i s = false →
    t.normal = s.normal ∧ (t.K = .normal → ∃ r, writesR14 i s = some r ∧ r.res.msb = false)) ∧
  (∀ (c : Cond) (f : FlagUpdate) (s : State), s.K = .interrupt → condHolds c s.fg = true → c ≠ .no →
    ∃ t, exec (.clearBit c f 14 15) s = .next t ∧ t.K = .normal ∧ t.normal = s.normal ∧
      (f = .nf → t.interrupt = s.interrupt)) ∧
  decodeWord 0x06FE#16 = .clearBit .al .nf 14 15

/-- Writing K with the value it already has does nothing (R127, R270). -/
def Obligations.RewritingKDoesNothing : Prop :=
  (∀ (c : Cond) (s : State), s.K = .interrupt → exec (.setBit c .nf 14 15) s = .next s) ∧
  (∀ (c : Cond) (s : State), s.K = .normal → exec (.clearBit c .nf 14 15) s = .next s)

/-! ### Immediates and the branch -/

/-- `mov low R0, imm8` and `mov high R0, imm8` (R190, R191): one byte of R0 replaced, the other kept; flags from the whole R0. -/
def Obligations.MovByteResult : Prop :=
  ∀ (c : Cond) (f : FlagUpdate) (imm : Byte) (s : State), condHolds c s.fg = true →
    (WordB8 (encode (.movLow c f imm)) 0x0900#16 imm ∧
      ∃ t, exec (.movLow c f imm) s = .next t ∧
        RegResult c f 0 (wordResult (BitVec.ofNat 16 ((s.x 0).toNat / 256 * 256 + imm.toNat)) none none) false s t ∧
        NoDeviceNoDraw s t) ∧
    (WordB8 (encode (.movHigh c f imm)) 0x0A00#16 imm ∧
      ∃ t, exec (.movHigh c f imm) s = .next t ∧
        RegResult c f 0 (wordResult (BitVec.ofNat 16 (imm.toNat * 256 + (s.x 0).toNat % 256)) none none) false s t ∧
        NoDeviceNoDraw s t)

/-- `add R15, simm8` (R192): R15 takes the address of the next instruction plus the signed byte, modulo 65536; C and V are
those of the 16-bit addition. -/
def Obligations.AddPcResult : Prop :=
  ∀ (c : Cond) (f : FlagUpdate) (simm : Byte) (s : State), condHolds c s.fg = true →
    WordB8 (encode (.addPc c f simm)) 0x0B00#16 simm ∧
    ∃ t, exec (.addPc c f simm) s = .next t ∧
      RegResult c f 15
        (wordResult (BitVec.ofInt 16 ((s.x 15).toNat + simm.toInt))
          (some (decide (65536 ≤ (s.x 15).toNat + (BitVec.ofInt 16 simm.toInt).toNat)))
          (some (decide ((s.x 15).toInt + simm.toInt < -32768 ∨ 32767 < (s.x 15).toInt + simm.toInt)))) false s t ∧
      NoDeviceNoDraw s t

/-! ### Arithmetic and logic -/

/-- `add Rx, Ry` (R200, R132). -/
def Obligations.AddRegResult : Prop :=
  ∀ (c : Cond) (f : FlagUpdate) (x y : LowReg) (s : State), condHolds c s.fg = true →
    WordRR3 (encode (.addReg c f x y)) 0x0C00#16 y x ∧
    ∃ t, exec (.addReg c f x y) s = .next t ∧
      RegResult c f (low x)
        (wordResult (BitVec.ofNat 16 ((s.x (low x)).toNat + (s.x (low y)).toNat))
          (some (decide (65536 ≤ (s.x (low x)).toNat + (s.x (low y)).toNat)))
          (some (decide ((s.x (low x)).toInt + (s.x (low y)).toInt < -32768 ∨
            32767 < (s.x (low x)).toInt + (s.x (low y)).toInt)))) false s t ∧
      NoDeviceNoDraw s t

/-- `sub Rx, Ry` (R201, R132): C is the borrow, or its complement under SUB_C = not_borrow. -/
def Obligations.SubRegResult : Prop :=
  ∀ (c : Cond) (f : FlagUpdate) (x y : LowReg) (s : State), condHolds c s.fg = true →
    WordRR3 (encode (.subReg c f x y)) 0x0C40#16 y x ∧
    ∃ t, exec (.subReg c f x y) s = .next t ∧
      RegResult c f (low x)
        (wordResult (BitVec.ofInt 16 ((s.x (low x)).toNat - (s.x (low y)).toNat : Int))
          (some (borrowOf s.cfg (s.x (low x)) (s.x (low y))))
          (some (decide ((s.x (low x)).toInt - (s.x (low y)).toInt < -32768 ∨
            32767 < (s.x (low x)).toInt - (s.x (low y)).toInt)))) false s t ∧
      NoDeviceNoDraw s t

/-- `and`, `or`, `xor Rx, Ry` (R202, R203, R204): bit by bit. -/
def Obligations.LogicResult : Prop :=
  ∀ (c : Cond) (f : FlagUpdate) (x y : LowReg) (s : State), condHolds c s.fg = true →
    (WordRR3 (encode (.andReg c f x y)) 0x0C80#16 y x ∧
      ∃ t res, exec (.andReg c f x y) s = .next t ∧
        (∀ n, n < 16 → res.getLsbD n = ((s.x (low x)).getLsbD n && (s.x (low y)).getLsbD n)) ∧
        RegResult c f (low x) (wordResult res none none) false s t ∧ NoDeviceNoDraw s t) ∧
    (WordRR3 (encode (.orReg c f x y)) 0x0CC0#16 y x ∧
      ∃ t res, exec (.orReg c f x y) s = .next t ∧
        (∀ n, n < 16 → res.getLsbD n = ((s.x (low x)).getLsbD n || (s.x (low y)).getLsbD n)) ∧
        RegResult c f (low x) (wordResult res none none) false s t ∧ NoDeviceNoDraw s t) ∧
    (WordRR3 (encode (.xorReg c f x y)) 0x0D00#16 y x ∧
      ∃ t res, exec (.xorReg c f x y) s = .next t ∧
        (∀ n, n < 16 → res.getLsbD n = ((s.x (low x)).getLsbD n ^^ (s.x (low y)).getLsbD n)) ∧
        RegResult c f (low x) (wordResult res none none) false s t ∧ NoDeviceNoDraw s t)

/-- What the flags say after `fl sub Rx, Ry`, under either SUB_C and also as the compare `no fl sub` (R133). -/
def Obligations.FlagsAfterACompare : Prop :=
  ∀ (c : Cond) (x y : LowReg) (s : State), condHolds c s.fg = true →
    ∃ t, exec (.subReg c .fl x y) s = .next t ∧
      (t.x 14).getLsbD 1 = decide (s.x (low x) = s.x (low y)) ∧
      (t.x 14).getLsbD 0 = (if s.cfg.subC = .borrow then decide ((s.x (low x)).toNat < (s.x (low y)).toNat)
        else decide ((s.x (low y)).toNat ≤ (s.x (low x)).toNat)) ∧
      (t.x 14).getLsbD 5 = (if s.cfg.subC = .borrow then decide ((s.x (low x)).toNat < (s.x (low y)).toNat)
        else decide ((s.x (low y)).toNat < (s.x (low x)).toNat)) ∧
      (t.x 14).getLsbD 6 = decide ((s.x (low x)).toInt < (s.x (low y)).toInt) ∧
      (t.x 14).getLsbD 7 = decide ((s.x (low y)).toInt < (s.x (low x)).toInt)

/-! ### Shifts -/

/-- `shl`, `shr`, `sar Rx, Ry` (R211, R212, R213): the count is the whole of Ry, or its low four bits under SHIFT_AMOUNT =
mod16; every count, 0 and 16 and above included (R210). -/
def Obligations.ShiftByRegisterResult : Prop :=
  ∀ (c : Cond) (f : FlagUpdate) (x y : LowReg) (s : State) (n : Nat), condHolds c s.fg = true →
    n = (if s.cfg.shiftAmount = .full then (s.x (low y)).toNat else (s.x (low y)).toNat % 16) →
    (WordRR3 (encode (.shlReg c f x y)) 0x0D40#16 y x ∧
      ∃ t, exec (.shlReg c f x y) s = .next t ∧
        RegResult c f (low x) (wordResultOf (BitVec.ofNat 16 ((s.x (low x)).toNat * 2 ^ n))
          (if 1 ≤ n ∧ n ≤ 16 then (s.x (low x)).getLsbD (16 - n) else false)) false s t ∧ NoDeviceNoDraw s t) ∧
    (WordRR3 (encode (.shrReg c f x y)) 0x0D80#16 y x ∧
      ∃ t, exec (.shrReg c f x y) s = .next t ∧
        RegResult c f (low x) (wordResultOf (BitVec.ofNat 16 ((s.x (low x)).toNat / 2 ^ n))
          (if 1 ≤ n ∧ n ≤ 16 then (s.x (low x)).getLsbD (n - 1) else false)) false s t ∧ NoDeviceNoDraw s t) ∧
    (WordRR3 (encode (.sarReg c f x y)) 0x0DC0#16 y x ∧
      ∃ t, exec (.sarReg c f x y) s = .next t ∧
        RegResult c f (low x) (wordResultOf (BitVec.ofInt 16 ((s.x (low x)).toInt / 2 ^ n))
          (if n = 0 then false else if n ≤ 16 then (s.x (low x)).getLsbD (n - 1) else (s.x (low x)).msb)) false s t ∧
        NoDeviceNoDraw s t)

/-- `shl`, `shr`, `sar Rx, imm3` (R214, R215, R216): the count is the field plus one, 1 to 8. -/
def Obligations.ShiftByImmediateResult : Prop :=
  ∀ (c : Cond) (f : FlagUpdate) (x : LowReg) (i : Fin 8) (s : State), condHolds c s.fg = true →
    (WordRR3 (encode (.shlImm c f x i)) 0x0F00#16 i x ∧
      ∃ t, exec (.shlImm c f x i) s = .next t ∧
        RegResult c f (low x) (wordResultOf (BitVec.ofNat 16 ((s.x (low x)).toNat * 2 ^ (i.val + 1)))
          ((s.x (low x)).getLsbD (16 - (i.val + 1)))) false s t ∧ NoDeviceNoDraw s t) ∧
    (WordRR3 (encode (.shrImm c f x i)) 0x0F40#16 i x ∧
      ∃ t, exec (.shrImm c f x i) s = .next t ∧
        RegResult c f (low x) (wordResultOf (BitVec.ofNat 16 ((s.x (low x)).toNat / 2 ^ (i.val + 1)))
          ((s.x (low x)).getLsbD i.val)) false s t ∧ NoDeviceNoDraw s t) ∧
    (WordRR3 (encode (.sarImm c f x i)) 0x0F80#16 i x ∧
      ∃ t, exec (.sarImm c f x i) s = .next t ∧
        RegResult c f (low x) (wordResultOf (BitVec.ofInt 16 ((s.x (low x)).toInt / 2 ^ (i.val + 1)))
          ((s.x (low x)).getLsbD i.val)) false s t ∧ NoDeviceNoDraw s t)

/-! ### Multiply and divide -/

/-- `mul` and `imul Rx, Ry` (R220, R221): the low word of the product; the two agree for every input. -/
def Obligations.MultiplyResult : Prop :=
  ∀ (c : Cond) (f : FlagUpdate) (x y : LowReg) (s : State), condHolds c s.fg = true →
    (WordRR3 (encode (.mulReg c f x y)) 0x0E00#16 y x ∧
      ∃ t, exec (.mulReg c f x y) s = .next t ∧
        RegResult c f (low x)
          (wordResult (BitVec.ofNat 16 ((s.x (low x)).toNat * (s.x (low y)).toNat)) none none) false s t ∧
        NoDeviceNoDraw s t) ∧
    (WordRR3 (encode (.imulReg c f x y)) 0x0E80#16 y x ∧
      ∃ t, exec (.imulReg c f x y) s = .next t ∧
        RegResult c f (low x)
          (wordResult (BitVec.ofInt 16 ((s.x (low x)).toInt * (s.x (low y)).toInt)) none none) false s t ∧
        NoDeviceNoDraw s t) ∧
    exec (.imulReg c f x y) s = exec (.mulReg c f x y) s

/-- `div` and `idiv Rx, Ry` where the spec gives the quotient (R222, R223): unsigned floor, and signed toward zero modulo
65536; -32768 / -1 is 32768 modulo 65536 unless the model's `idivOverflow` puts it under DIV_ZERO (log 7). -/
def Obligations.DivideResult : Prop :=
  ∀ (c : Cond) (f : FlagUpdate) (x y : LowReg) (s : State), condHolds c s.fg = true →
    (WordRR3 (encode (.divReg c f x y)) 0x0E40#16 y x ∧
      (isOpenDivision (.divReg c f x y) s = false → ∃ t, exec (.divReg c f x y) s = .next t ∧
        RegResult c f (low x)
          (wordResult (BitVec.ofNat 16 ((s.x (low x)).toNat / (s.x (low y)).toNat)) none none) false s t ∧
        NoDeviceNoDraw s t)) ∧
    (WordRR3 (encode (.idivReg c f x y)) 0x0EC0#16 y x ∧
      (isOpenDivision (.idivReg c f x y) s = false → ∃ t, exec (.idivReg c f x y) s = .next t ∧
        RegResult c f (low x)
          (wordResult (BitVec.ofInt 16 ((s.x (low x)).toInt.tdiv (s.x (low y)).toInt)) none none) false s t ∧
        NoDeviceNoDraw s t))

/-- A division the spec leaves open (R224): under DIV_ZERO = draw Rx and, with `fl`, Z and S take values nothing constrains, C
and V are 0 (otherwise), and the next instruction follows; under refuse it has no step. -/
def Obligations.OpenDivision : Prop :=
  ∀ (c : Cond) (f : FlagUpdate) (x y : LowReg) (i : Instr) (s : State), i = .divReg c f x y ∨ i = .idivReg c f x y →
    condHolds c s.fg = true → isOpenDivision i s = true →
    (s.cfg.divZero = .draw → ∃ t, exec i s = .next t ∧
      RegResult c f (low x)
        ⟨Config.drawWord s.draws, { c := none, z := Config.drawZ s.draws, v := none, s := Config.drawS s.draws }⟩ false s t ∧
      t.draws = s.draws + 1 ∧ t.ioLog = s.ioLog) ∧
    (s.cfg.divZero = .refuse → exec i s = .refused .divisionRefused)

/-! ### Single-register instructions and the reserved rows -/

/-- `add Rx, 1` on R0 to R14 and `sub Rx, 1` on R0 to R15 (R230, R231); x = 15 of the first is refused. -/
def Obligations.IncrementAndDecrement : Prop :=
  ∀ (c : Cond) (f : FlagUpdate) (x : Reg) (s : State), condHolds c s.fg = true →
    (WordR4 (encode (.inc c f x)) 0x0FC0#16 x ∧
      (x.val = 15 → exec (.inc c f x) s = .refused .reservedIncrementOfR15) ∧
      (x.val ≠ 15 → ∃ t, exec (.inc c f x) s = .next t ∧
        RegResult c f x (wordResult (BitVec.ofNat 16 ((s.x x).toNat + 1)) (some (decide (s.x x = 0xFFFF#16)))
          (some (decide (s.x x = 0x7FFF#16)))) false s t ∧ NoDeviceNoDraw s t)) ∧
    (WordR4 (encode (.dec c f x)) 0x0FD0#16 x ∧
      ∃ t, exec (.dec c f x) s = .next t ∧
        RegResult c f x (wordResult (BitVec.ofInt 16 ((s.x x).toNat - 1 : Int)) (some (borrowOf s.cfg (s.x x) 1#16))
          (some (decide (s.x x = 0x8000#16)))) false s t ∧ NoDeviceNoDraw s t)

/-- `not Rx` (R232): 65535 - Rx; x = 15 branches there, x = 14 always switches context. -/
def Obligations.NotRegResult : Prop :=
  ∀ (c : Cond) (f : FlagUpdate) (x : Reg) (s : State), condHolds c s.fg = true →
    WordR4 (encode (.notReg c f x)) 0x0FE0#16 x ∧
    ∃ t, exec (.notReg c f x) s = .next t ∧
      RegResult c f x (wordResult (BitVec.ofNat 16 (65535 - (s.x x).toNat)) none none) false s t ∧ NoDeviceNoDraw s t ∧
      (x.val = 14 → c ≠ .no → t.K ≠ s.K)

/-- `neg Rx` (R233): 0 - Rx with the flags of that subtraction, or under NEG_MODE = byte_swap the two bytes exchanged. -/
def Obligations.NegRegResult : Prop :=
  ∀ (c : Cond) (f : FlagUpdate) (x : Reg) (s : State), condHolds c s.fg = true →
    WordR4 (encode (.negReg c f x)) 0x0FF0#16 x ∧
    ∃ t, exec (.negReg c f x) s = .next t ∧
      RegResult c f x
        (if s.cfg.negMode = .twosComplement then
          wordResult (BitVec.ofNat 16 (65536 - (s.x x).toNat)) (some (borrowOf s.cfg 0#16 (s.x x)))
            (some (decide (s.x x = 0x8000#16)))
        else wordResult (BitVec.ofNat 16 ((s.x x).toNat % 256 * 256 + (s.x x).toNat / 256)) none none) false s t ∧
      NoDeviceNoDraw s t

/-- The reserved rows have no step when their condition holds, `no` included (R97, R98), and pass when it does not (R123). -/
def Obligations.ReservedWordsStop : Prop :=
  ∀ (c : Cond) (f : FlagUpdate) (p : Byte) (s : State),
    (condHolds c s.fg = true →
      exec (.reservedOp4 c f p) s = .refused .reservedOpcode0100 ∧
      exec (.reservedIncPc c f) s = .refused .reservedIncrementOfR15) ∧
    (condHolds c s.fg = false →
      exec (.reservedOp4 c f p) s = .next s ∧ exec (.reservedIncPc c f) s = .next s)

end Statements
end

