-- ==== Sys2Proof/Laws/State.lean ====
section
/-! SUPPORT. One small lemma per field per update of the state, so that no later proof unfolds a record update. -/

namespace Sys2Proof.Machine

/-! ### `setRegs` -/

@[simp] theorem setRegs_cfg (s : State) (k r) : (s.setRegs k r).cfg = s.cfg := by cases k <;> rfl
@[simp] theorem setRegs_K (s : State) (k r) : (s.setRegs k r).K = s.K := by cases k <;> rfl
@[simp] theorem setRegs_halted (s : State) (k r) : (s.setRegs k r).halted = s.halted := by cases k <;> rfl
@[simp] theorem setRegs_dataMem (s : State) (k r) : (s.setRegs k r).dataMem = s.dataMem := by cases k <;> rfl
@[simp] theorem setRegs_progMem (s : State) (k r) : (s.setRegs k r).progMem = s.progMem := by cases k <;> rfl
@[simp] theorem setRegs_inputs (s : State) (k r) : (s.setRegs k r).inputs = s.inputs := by cases k <;> rfl
@[simp] theorem setRegs_held (s : State) (k r) : (s.setRegs k r).held = s.held := by cases k <;> rfl
@[simp] theorem setRegs_ioLog (s : State) (k r) : (s.setRegs k r).ioLog = s.ioLog := by cases k <;> rfl
@[simp] theorem setRegs_draws (s : State) (k r) : (s.setRegs k r).draws = s.draws := by cases k <;> rfl
@[simp] theorem setRegs_regs_same (s : State) (k r) : (s.setRegs k r).regs k = r := by cases k <;> rfl
theorem setRegs_regs_of_ne (s : State) {k k' : Context} (r) (h : k' ≠ k) : (s.setRegs k r).regs k' = s.regs k' := by
  cases k <;> cases k' <;> first | rfl | exact absurd rfl h

/-! ### `switchTo` -/

@[simp] theorem switchTo_K (s : State) (k) : (s.switchTo k).K = k := by cases k <;> rfl
@[simp] theorem switchTo_cfg (s : State) (k) : (s.switchTo k).cfg = s.cfg := by cases k <;> rfl
@[simp] theorem switchTo_halted (s : State) (k) : (s.switchTo k).halted = s.halted := by cases k <;> rfl
@[simp] theorem switchTo_dataMem (s : State) (k) : (s.switchTo k).dataMem = s.dataMem := by cases k <;> rfl
@[simp] theorem switchTo_progMem (s : State) (k) : (s.switchTo k).progMem = s.progMem := by cases k <;> rfl
@[simp] theorem switchTo_inputs (s : State) (k) : (s.switchTo k).inputs = s.inputs := by cases k <;> rfl
@[simp] theorem switchTo_held (s : State) (k) : (s.switchTo k).held = s.held := by cases k <;> rfl
@[simp] theorem switchTo_ioLog (s : State) (k) : (s.switchTo k).ioLog = s.ioLog := by cases k <;> rfl
@[simp] theorem switchTo_draws (s : State) (k) : (s.switchTo k).draws = s.draws := by cases k <;> rfl
@[simp] theorem switchTo_normal (s : State) (k) : (s.switchTo k).normal = s.normal := by cases k <;> rfl

/-! ### `switchIf` -/

@[simp] theorem switchIf_cfg (s : State) (k) : (s.switchIf k).cfg = s.cfg := by cases k <;> simp [State.switchIf]
@[simp] theorem switchIf_halted (s : State) (k) : (s.switchIf k).halted = s.halted := by cases k <;> simp [State.switchIf]
@[simp] theorem switchIf_dataMem (s : State) (k) : (s.switchIf k).dataMem = s.dataMem := by
  cases k <;> simp [State.switchIf]
@[simp] theorem switchIf_progMem (s : State) (k) : (s.switchIf k).progMem = s.progMem := by
  cases k <;> simp [State.switchIf]
@[simp] theorem switchIf_inputs (s : State) (k) : (s.switchIf k).inputs = s.inputs := by cases k <;> simp [State.switchIf]
@[simp] theorem switchIf_held (s : State) (k) : (s.switchIf k).held = s.held := by cases k <;> simp [State.switchIf]
@[simp] theorem switchIf_ioLog (s : State) (k) : (s.switchIf k).ioLog = s.ioLog := by cases k <;> simp [State.switchIf]
@[simp] theorem switchIf_draws (s : State) (k) : (s.switchIf k).draws = s.draws := by cases k <;> simp [State.switchIf]
@[simp] theorem switchIf_normal (s : State) (k) : (s.switchIf k).normal = s.normal := by cases k <;> simp [State.switchIf]

/-! ### `react`, `processorReset`, `flagLine` -/

@[simp] theorem processorReset_cfg (s : State) : s.processorReset.cfg = s.cfg := rfl
@[simp] theorem processorReset_dataMem (s : State) : s.processorReset.dataMem = s.dataMem := rfl
@[simp] theorem processorReset_progMem (s : State) : s.processorReset.progMem = s.progMem := rfl
@[simp] theorem processorReset_inputs (s : State) : s.processorReset.inputs = s.inputs := rfl
@[simp] theorem processorReset_held (s : State) : s.processorReset.held = s.held := rfl
@[simp] theorem processorReset_ioLog (s : State) : s.processorReset.ioLog = s.ioLog := rfl
@[simp] theorem processorReset_draws (s : State) : s.processorReset.draws = s.draws := rfl
@[simp] theorem processorReset_K (s : State) : s.processorReset.K = .normal := rfl
@[simp] theorem processorReset_halted (s : State) : s.processorReset.halted = false := rfl
@[simp] theorem processorReset_regs (s : State) (k) : s.processorReset.regs k = RegSet.zero := by cases k <;> rfl

@[simp] theorem react_cfg (s : State) (r) : (s.react r).cfg = s.cfg := by cases r <;> rfl
@[simp] theorem react_dataMem (s : State) (r) : (s.react r).dataMem = s.dataMem := by cases r <;> rfl
@[simp] theorem react_progMem (s : State) (r) : (s.react r).progMem = s.progMem := by cases r <;> rfl
@[simp] theorem react_inputs (s : State) (r) : (s.react r).inputs = s.inputs := by cases r <;> rfl
@[simp] theorem react_held (s : State) (r) : (s.react r).held = s.held := by cases r <;> rfl
@[simp] theorem react_ioLog (s : State) (r) : (s.react r).ioLog = s.ioLog := by cases r <;> rfl
@[simp] theorem react_draws (s : State) (r) : (s.react r).draws = s.draws := by cases r <;> rfl
@[simp] theorem react_none (s : State) : s.react .none = s := rfl
@[simp] theorem react_softReset (s : State) : s.react .softReset = s.processorReset := rfl

@[simp] theorem flagLine_cfg (s : State) (k f fl) : (s.flagLine k f fl).cfg = s.cfg := by
  cases f <;> simp [State.flagLine, State.updateFlagsOf]
@[simp] theorem flagLine_K (s : State) (k f fl) : (s.flagLine k f fl).K = s.K := by
  cases f <;> simp [State.flagLine, State.updateFlagsOf]
@[simp] theorem flagLine_halted (s : State) (k f fl) : (s.flagLine k f fl).halted = s.halted := by
  cases f <;> simp [State.flagLine, State.updateFlagsOf]
@[simp] theorem flagLine_dataMem (s : State) (k f fl) : (s.flagLine k f fl).dataMem = s.dataMem := by
  cases f <;> simp [State.flagLine, State.updateFlagsOf]
@[simp] theorem flagLine_progMem (s : State) (k f fl) : (s.flagLine k f fl).progMem = s.progMem := by
  cases f <;> simp [State.flagLine, State.updateFlagsOf]
@[simp] theorem flagLine_inputs (s : State) (k f fl) : (s.flagLine k f fl).inputs = s.inputs := by
  cases f <;> simp [State.flagLine, State.updateFlagsOf]
@[simp] theorem flagLine_held (s : State) (k f fl) : (s.flagLine k f fl).held = s.held := by
  cases f <;> simp [State.flagLine, State.updateFlagsOf]
@[simp] theorem flagLine_ioLog (s : State) (k f fl) : (s.flagLine k f fl).ioLog = s.ioLog := by
  cases f <;> simp [State.flagLine, State.updateFlagsOf]
@[simp] theorem flagLine_draws (s : State) (k f fl) : (s.flagLine k f fl).draws = s.draws := by
  cases f <;> simp [State.flagLine, State.updateFlagsOf]
theorem flagLine_regs_of_ne (s : State) {k k' : Context} (f fl) (h : k' ≠ k) :
    (s.flagLine k f fl).regs k' = s.regs k' := by
  cases f
  · rfl
  · exact setRegs_regs_of_ne _ _ h
@[simp] theorem flagLine_gpr (s : State) (k f fl) : ((s.flagLine k f fl).regs k).gpr = (s.regs k).gpr := by
  cases f <;> simp [State.flagLine, State.updateFlagsOf]
@[simp] theorem flagLine_pc (s : State) (k f fl) : ((s.flagLine k f fl).regs k).pc = (s.regs k).pc := by
  cases f <;> simp [State.flagLine, State.updateFlagsOf]

/-! ### Register write-back -/

@[simp] theorem writeReg_cfg (s : State) (d v) : (s.writeReg d v).cfg = s.cfg := by simp [State.writeReg]
@[simp] theorem writeReg_K (s : State) (d v) : (s.writeReg d v).K = s.K := by simp [State.writeReg]
@[simp] theorem writeReg_halted (s : State) (d v) : (s.writeReg d v).halted = s.halted := by simp [State.writeReg]
@[simp] theorem writeReg_dataMem (s : State) (d v) : (s.writeReg d v).dataMem = s.dataMem := by simp [State.writeReg]
@[simp] theorem writeReg_progMem (s : State) (d v) : (s.writeReg d v).progMem = s.progMem := by simp [State.writeReg]
@[simp] theorem writeReg_inputs (s : State) (d v) : (s.writeReg d v).inputs = s.inputs := by simp [State.writeReg]
@[simp] theorem writeReg_held (s : State) (d v) : (s.writeReg d v).held = s.held := by simp [State.writeReg]
@[simp] theorem writeReg_ioLog (s : State) (d v) : (s.writeReg d v).ioLog = s.ioLog := by simp [State.writeReg]
@[simp] theorem writeReg_draws (s : State) (d v) : (s.writeReg d v).draws = s.draws := by simp [State.writeReg]
theorem writeReg_regs_of_ne (s : State) {k : Context} (d v) (h : k ≠ s.K) : (s.writeReg d v).regs k = s.regs k :=
  setRegs_regs_of_ne _ _ h
@[simp] theorem writeReg_regs_active (s : State) (d v) :
    (s.writeReg d v).regs s.K = (s.regs s.K).write s.cfg d v := setRegs_regs_same _ _ _

@[simp] theorem writeX_cfg (s : State) (b) : (s.writeX b).cfg = s.cfg := by simp [State.writeX]
@[simp] theorem writeX_K (s : State) (b) : (s.writeX b).K = s.K := by simp [State.writeX]
@[simp] theorem writeX_halted (s : State) (b) : (s.writeX b).halted = s.halted := by simp [State.writeX]
@[simp] theorem writeX_dataMem (s : State) (b) : (s.writeX b).dataMem = s.dataMem := by simp [State.writeX]
@[simp] theorem writeX_progMem (s : State) (b) : (s.writeX b).progMem = s.progMem := by simp [State.writeX]
@[simp] theorem writeX_inputs (s : State) (b) : (s.writeX b).inputs = s.inputs := by simp [State.writeX]
@[simp] theorem writeX_held (s : State) (b) : (s.writeX b).held = s.held := by simp [State.writeX]
@[simp] theorem writeX_ioLog (s : State) (b) : (s.writeX b).ioLog = s.ioLog := by simp [State.writeX]
@[simp] theorem writeX_draws (s : State) (b) : (s.writeX b).draws = s.draws := by simp [State.writeX]
@[simp] theorem writeX_regs_active (s : State) (b) :
    (s.writeX b).regs s.K = { s.regs s.K with fg := putBit (s.regs s.K).fg FG.X b } := setRegs_regs_same _ _ _
theorem writeX_regs_of_ne (s : State) {k : Context} (b) (h : k ≠ s.K) : (s.writeX b).regs k = s.regs k :=
  setRegs_regs_of_ne _ _ h

/-! ### Stores and loads -/

@[simp] theorem storeWord_cfg (s : State) (a v) : (s.storeWord a v).cfg = s.cfg := by
  simp only [State.storeWord]; split <;> rfl
@[simp] theorem storeWord_K (s : State) (a v) : (s.storeWord a v).K = s.K := by
  simp only [State.storeWord]; split <;> rfl
@[simp] theorem storeWord_halted (s : State) (a v) : (s.storeWord a v).halted = s.halted := by
  simp only [State.storeWord]; split <;> rfl
@[simp] theorem storeWord_regs (s : State) (a v k) : (s.storeWord a v).regs k = s.regs k := by
  simp only [State.storeWord]; split <;> cases k <;> rfl
@[simp] theorem storeWord_progMem (s : State) (a v) : (s.storeWord a v).progMem = s.progMem := by
  simp only [State.storeWord]; split <;> rfl
@[simp] theorem storeWord_inputs (s : State) (a v) : (s.storeWord a v).inputs = s.inputs := by
  simp only [State.storeWord]; split <;> rfl
@[simp] theorem storeWord_held (s : State) (a v) : (s.storeWord a v).held = s.held := by
  simp only [State.storeWord]; split <;> rfl
@[simp] theorem storeWord_draws (s : State) (a v) : (s.storeWord a v).draws = s.draws := by
  simp only [State.storeWord]; split <;> rfl

@[simp] theorem afterLoad_cfg (s : State) (a) : (s.afterLoad a).cfg = s.cfg := by
  simp only [State.afterLoad]; split <;> rfl
@[simp] theorem afterLoad_K (s : State) (a) : (s.afterLoad a).K = s.K := by
  simp only [State.afterLoad]; split <;> rfl
@[simp] theorem afterLoad_halted (s : State) (a) : (s.afterLoad a).halted = s.halted := by
  simp only [State.afterLoad]; split <;> rfl
@[simp] theorem afterLoad_regs (s : State) (a k) : (s.afterLoad a).regs k = s.regs k := by
  simp only [State.afterLoad]; split <;> cases k <;> rfl
@[simp] theorem afterLoad_dataMem (s : State) (a) : (s.afterLoad a).dataMem = s.dataMem := by
  simp only [State.afterLoad]; split <;> rfl
@[simp] theorem afterLoad_progMem (s : State) (a) : (s.afterLoad a).progMem = s.progMem := by
  simp only [State.afterLoad]; split <;> rfl
@[simp] theorem afterLoad_inputs (s : State) (a) : (s.afterLoad a).inputs = s.inputs := by
  simp only [State.afterLoad]; split <;> rfl
@[simp] theorem afterLoad_held (s : State) (a) : (s.afterLoad a).held = s.held := by
  simp only [State.afterLoad]; split <;> rfl

/-! ### Fetch, advance, interrupt entry, input samples -/

@[simp] theorem advancePc_cfg (s : State) : s.advancePc.cfg = s.cfg := by simp [State.advancePc]
@[simp] theorem advancePc_K (s : State) : s.advancePc.K = s.K := by simp [State.advancePc]
@[simp] theorem advancePc_halted (s : State) : s.advancePc.halted = s.halted := by simp [State.advancePc]
@[simp] theorem advancePc_dataMem (s : State) : s.advancePc.dataMem = s.dataMem := by simp [State.advancePc]
@[simp] theorem advancePc_progMem (s : State) : s.advancePc.progMem = s.progMem := by simp [State.advancePc]
@[simp] theorem advancePc_inputs (s : State) : s.advancePc.inputs = s.inputs := by simp [State.advancePc]
@[simp] theorem advancePc_held (s : State) : s.advancePc.held = s.held := by simp [State.advancePc]
@[simp] theorem advancePc_ioLog (s : State) : s.advancePc.ioLog = s.ioLog := by simp [State.advancePc]
@[simp] theorem advancePc_draws (s : State) : s.advancePc.draws = s.draws := by simp [State.advancePc]
@[simp] theorem advancePc_regs_active (s : State) :
    s.advancePc.regs s.K = { s.regs s.K with pc := (s.regs s.K).pc + 1#16 } := setRegs_regs_same _ _ _
theorem advancePc_regs_of_ne (s : State) {k : Context} (h : k ≠ s.K) : s.advancePc.regs k = s.regs k :=
  setRegs_regs_of_ne _ _ h

@[simp] theorem consumeInputs_cfg (s : State) : s.consumeInputs.cfg = s.cfg := rfl
@[simp] theorem consumeInputs_K (s : State) : s.consumeInputs.K = s.K := rfl
@[simp] theorem consumeInputs_regs (s : State) (k) : s.consumeInputs.regs k = s.regs k := by cases k <;> rfl
@[simp] theorem consumeInputs_normal (s : State) : s.consumeInputs.normal = s.normal := rfl
@[simp] theorem consumeInputs_interrupt (s : State) : s.consumeInputs.interrupt = s.interrupt := rfl
@[simp] theorem consumeInputs_halted (s : State) : s.consumeInputs.halted = s.halted := rfl
@[simp] theorem consumeInputs_dataMem (s : State) : s.consumeInputs.dataMem = s.dataMem := rfl
@[simp] theorem consumeInputs_progMem (s : State) : s.consumeInputs.progMem = s.progMem := rfl
@[simp] theorem consumeInputs_inputs (s : State) : s.consumeInputs.inputs = s.inputs.tail := rfl
@[simp] theorem consumeInputs_held (s : State) : s.consumeInputs.held = s.held := rfl
@[simp] theorem consumeInputs_ioLog (s : State) : s.consumeInputs.ioLog = s.ioLog := rfl
@[simp] theorem consumeInputs_draws (s : State) : s.consumeInputs.draws = s.draws := rfl

@[simp] theorem enterBySignal_cfg (s : State) : s.enterBySignal.cfg = s.cfg := rfl
@[simp] theorem enterBySignal_K (s : State) : s.enterBySignal.K = .interrupt := rfl
@[simp] theorem enterBySignal_normal (s : State) : s.enterBySignal.normal = s.normal := rfl
@[simp] theorem enterBySignal_gpr (s : State) : s.enterBySignal.interrupt.gpr = s.interrupt.gpr := rfl
@[simp] theorem enterBySignal_pc (s : State) : s.enterBySignal.interrupt.pc = s.interrupt.pc := rfl
@[simp] theorem enterBySignal_fg (s : State) : s.enterBySignal.interrupt.fg = putBit s.interrupt.fg FG.I true := rfl
@[simp] theorem enterBySignal_halted (s : State) : s.enterBySignal.halted = s.halted := rfl
@[simp] theorem enterBySignal_dataMem (s : State) : s.enterBySignal.dataMem = s.dataMem := rfl
@[simp] theorem enterBySignal_progMem (s : State) : s.enterBySignal.progMem = s.progMem := rfl
@[simp] theorem enterBySignal_inputs (s : State) : s.enterBySignal.inputs = s.inputs := rfl
@[simp] theorem enterBySignal_held (s : State) : s.enterBySignal.held = s.held := rfl
@[simp] theorem enterBySignal_ioLog (s : State) : s.enterBySignal.ioLog = s.ioLog := rfl
@[simp] theorem enterBySignal_draws (s : State) : s.enterBySignal.draws = s.draws := rfl

@[simp] theorem sampleInterrupt_cfg (s : State) (q) : (s.sampleInterrupt q).cfg = s.cfg := by
  simp only [State.sampleInterrupt]; split <;> rfl
@[simp] theorem sampleInterrupt_halted (s : State) (q) : (s.sampleInterrupt q).halted = s.halted := by
  simp only [State.sampleInterrupt]; split <;> rfl
@[simp] theorem sampleInterrupt_normal (s : State) (q) : (s.sampleInterrupt q).normal = s.normal := by
  simp only [State.sampleInterrupt]; split <;> rfl
@[simp] theorem sampleInterrupt_dataMem (s : State) (q) : (s.sampleInterrupt q).dataMem = s.dataMem := by
  simp only [State.sampleInterrupt]; split <;> rfl
@[simp] theorem sampleInterrupt_progMem (s : State) (q) : (s.sampleInterrupt q).progMem = s.progMem := by
  simp only [State.sampleInterrupt]; split <;> rfl
@[simp] theorem sampleInterrupt_inputs (s : State) (q) : (s.sampleInterrupt q).inputs = s.inputs := by
  simp only [State.sampleInterrupt]; split <;> rfl
@[simp] theorem sampleInterrupt_held (s : State) (q) : (s.sampleInterrupt q).held = s.held := by
  simp only [State.sampleInterrupt]; split <;> rfl
@[simp] theorem sampleInterrupt_ioLog (s : State) (q) : (s.sampleInterrupt q).ioLog = s.ioLog := by
  simp only [State.sampleInterrupt]; split <;> rfl
@[simp] theorem sampleInterrupt_draws (s : State) (q) : (s.sampleInterrupt q).draws = s.draws := by
  simp only [State.sampleInterrupt]; split <;> rfl

end Sys2Proof.Machine
end

