-- ==== Sys2Proof/Laws/Bits.lean ====
section
/-! SUPPORT. Bits of a word with one bit replaced, of the functions on the stored flag word, and register reads and writes. -/

namespace Sys2Proof.Machine

/-- A replaced bit reads as the new value, every other bit as before (40_execution_model R126). -/
theorem getLsbD_putBit {n : Nat} (v : BitVec n) (i : Nat) (b : Bool) (j : Nat) :
    (putBit v i b).getLsbD j = if j = i ∧ i < n then b else v.getLsbD j := by
  by_cases hj : j < n
  · have one : (1#n <<< i).getLsbD j = decide (j = i) := by
      rw [BitVec.getLsbD_shiftLeft, BitVec.getLsbD_one, Bool.eq_iff_iff]
      simp only [Bool.and_eq_true, Bool.not_eq_true', decide_eq_true_eq, decide_eq_false_iff_not]
      omega
    cases b
    · rw [putBit, if_neg (by decide), BitVec.getLsbD_and, BitVec.getLsbD_not, one]
      by_cases h : j = i
      · rw [if_pos ⟨h, by omega⟩, decide_eq_true h]
        simp
      · rw [if_neg (by tauto), decide_eq_false h]
        simp [hj]
    · rw [putBit, if_pos rfl, BitVec.getLsbD_or, one]
      by_cases h : j = i
      · rw [if_pos ⟨h, by omega⟩, decide_eq_true h, Bool.or_true]
      · rw [if_neg (by tauto), decide_eq_false h, Bool.or_false]
  · have h1 : ∀ w : BitVec n, w.getLsbD j = false := fun w => BitVec.getLsbD_of_ge _ _ (by omega)
    rw [h1, h1, if_neg (by omega)]

/-! ### The flag update -/

/-- C, Z, V, S after the flag line, every other bit kept. -/
theorem getLsbD_putFlags (cfg : Config) (fl : FlagInputs) (fg : BitVec 15) (n : Nat) :
    (putFlags cfg fl fg).getLsbD n =
      if n = 0 then otherwise cfg (fg.getLsbD 0) fl.c
      else if n = 1 then fl.z
      else if n = 3 then otherwise cfg (fg.getLsbD 3) fl.v
      else if n = 4 then fl.s
      else fg.getLsbD n := by
  simp only [putFlags, getLsbD_putBit, FG.C, FG.Z, FG.V, FG.S]
  split_ifs <;> first | rfl | omega

/-- A, L and G computed, every other bit kept. -/
theorem getLsbD_withAlg (fg : BitVec 15) (n : Nat) :
    (withAlg fg).getLsbD n =
      if n = 5 then algA fg else if n = 6 then algL fg else if n = 7 then algG fg else fg.getLsbD n := by
  simp only [withAlg, getLsbD_putBit, FG.A, FG.L, FG.G]
  split_ifs <;> first | rfl | omega

/-- "0 (otherwise)" as 00_scope section 4 words it. -/
theorem otherwise_eq (cfg : Config) (old : Bool) (o : Option Bool) :
    otherwise cfg old o = o.getD (if cfg.flagOtherwise = .keep then old else false) := by
  cases o with
  | some b => rfl
  | none => cases h : cfg.flagOtherwise <;> simp [otherwise, h]

/-- A bit of a read of R14 below bit 15, outside A, L and G, is the stored bit. -/
theorem getLsbD_readFlags_of_not_alg (cfg : Config) (fg : BitVec 15) {n : Nat} (h : n < 5 ∨ 7 < n) :
    (readFlags cfg fg).getLsbD n = fg.getLsbD n := by
  cases hm : cfg.algMode <;> simp only [readFlags, hm, getLsbD_withAlg]
  rw [if_neg (by omega), if_neg (by omega), if_neg (by omega)]

/-- A write of R14 stores the bits outside A, L and G as given. -/
theorem getLsbD_writeFlags_of_not_alg (cfg : Config) (fg : BitVec 15) (v : Word) {n : Nat} (hn : n < 15)
    (h : n < 5 ∨ 7 < n) : (writeFlags cfg fg v).getLsbD n = v.getLsbD n := by
  cases hm : cfg.algMode <;> simp only [writeFlags, hm, getLsbD_putBit, FG.A, FG.L, FG.G]
  · simp [hn]
  · rw [if_neg (by omega), if_neg (by omega), if_neg (by omega)]
    simp [hn]

/-- Where A, L and G are stored, a write of R14 stores every bit as given (R127). -/
theorem getLsbD_writeFlags_stored (cfg : Config) (fg : BitVec 15) (v : Word) (hm : cfg.algMode = .stored) {n : Nat}
    (hn : n < 15) : (writeFlags cfg fg v).getLsbD n = v.getLsbD n := by
  simp [writeFlags, hm, hn]

/-- The flag update, seen outside A, L and G. -/
theorem getLsbD_updateFlags_of_not_alg (cfg : Config) (fl : FlagInputs) (fg : BitVec 15) {n : Nat} (h : n < 5 ∨ 7 < n) :
    (updateFlags cfg fl fg).getLsbD n = (putFlags cfg fl fg).getLsbD n := by
  cases hm : cfg.algMode <;> simp only [updateFlags, hm, getLsbD_withAlg]
  rw [if_neg (by omega), if_neg (by omega), if_neg (by omega)]

/-! ### Registers -/

@[simp] theorem read_gpr (cfg : Config) (k : Context) (r : RegSet) (i : Reg) (h : i.val < 14) :
    r.read cfg k i = r.gpr[i.val] := by simp [RegSet.read, h]

@[simp] theorem read_pc (cfg : Config) (k : Context) (r : RegSet) (i : Reg) (h : i.val = 15) :
    r.read cfg k i = r.pc := by simp [RegSet.read, h]

theorem read_fg (cfg : Config) (k : Context) (r : RegSet) (i : Reg) (h : i.val = 14) :
    r.read cfg k i = BitVec.ofBool k.bit ++ readFlags cfg r.fg := by simp [RegSet.read, h]

/-- A bit of R14 below bit 15 (10_state R27). -/
theorem getLsbD_read_fg (cfg : Config) (k : Context) (r : RegSet) {n : Nat} (hn : n < 15) :
    (r.read cfg k 14).getLsbD n = (readFlags cfg r.fg).getLsbD n := by
  rw [read_fg _ _ _ _ rfl, BitVec.getLsbD_append, if_pos hn]

/-- Bit 15 of R14 is K (10_state R24). -/
theorem msb_read_fg (cfg : Config) (k : Context) (r : RegSet) : (r.read cfg k 14).msb = k.bit := by
  rw [read_fg _ _ _ _ rfl, BitVec.msb_append]
  cases k <;> rfl

/-- Every register but R14 after a register write (40_execution_model R126). -/
theorem read_write (cfg : Config) (k : Context) (r : RegSet) (d i : Reg) (v : Word) (hi : i.val ≠ 14) :
    (r.write cfg d v).read cfg k i = if i = d then v else r.read cfg k i := by
  have hlt := i.isLt
  have hd := d.isLt
  unfold RegSet.write
  by_cases h1 : d.val < 14
  · simp only [h1, dif_pos]
    by_cases h2 : i.val < 14
    · rw [read_gpr _ _ _ _ h2, read_gpr _ _ _ _ h2]
      simp only [Vector.getElem_set, Fin.ext_iff, eq_comm]
    · rw [read_pc _ _ _ _ (by omega), read_pc _ _ _ _ (by omega), if_neg (by rintro rfl; omega)]
  · simp only [h1, dif_neg, not_false_eq_true]
    by_cases h2 : d.val = 14
    · simp only [h2, if_true]
      rw [if_neg (by rintro rfl; omega)]
      by_cases h3 : i.val < 14
      · rw [read_gpr _ _ _ _ h3, read_gpr _ _ _ _ h3]
      · rw [read_pc _ _ _ _ (by omega), read_pc _ _ _ _ (by omega)]
    · simp only [h2, if_false]
      by_cases h3 : i.val < 14
      · rw [read_gpr _ _ _ _ h3, read_gpr _ _ _ _ h3, if_neg (by rintro rfl; omega)]
      · rw [read_pc _ _ _ _ (by omega), if_pos (by apply Fin.ext; omega)]

@[simp] theorem write_fg_of_ne (cfg : Config) (r : RegSet) (d : Reg) (v : Word) (h : d.val ≠ 14) :
    (r.write cfg d v).fg = r.fg := by
  unfold RegSet.write; split
  · rfl
  · rfl

@[simp] theorem write_fg (cfg : Config) (r : RegSet) (d : Reg) (v : Word) (h : d.val = 14) :
    (r.write cfg d v).fg = writeFlags cfg r.fg v := by simp [RegSet.write, h]

/-- A read of a register other than R14 does not depend on the stored flags. -/
theorem read_congr (cfg : Config) (k : Context) (r r' : RegSet) (i : Reg) (hi : i.val ≠ 14) (hg : r'.gpr = r.gpr)
    (hp : r'.pc = r.pc) : r'.read cfg k i = r.read cfg k i := by
  have hlt := i.isLt
  by_cases h : i.val < 14
  · rw [read_gpr _ _ _ _ h, read_gpr _ _ _ _ h, hg]
  · rw [read_pc _ _ _ _ (by omega), read_pc _ _ _ _ (by omega), hp]

end Sys2Proof.Machine
end

