-- ==== Sys2Proof/Laws/Finish.lean ====
section
/-! SUPPORT. What lines 7 to 9 of the step do, said once: for a register destination (`finishReg_spec`, `finishBit_spec`), for
the X flag and for memory, and for every destination when the condition is `no`. -/

namespace Sys2Proof.Machine

/-- The stored flag word after line 8. -/
def flagStep (cfg : Config) (f : FlagUpdate) (fl : FlagInputs) (g : BitVec 15) : BitVec 15 :=
  match f with
  | .nf => g
  | .fl => updateFlags cfg fl g

@[simp] theorem flagLine_fg (s : State) (k f fl) :
    ((s.flagLine k f fl).regs k).fg = flagStep s.cfg f fl (s.regs k).fg := by
  cases f <;> simp [State.flagLine, State.updateFlagsOf, flagStep]

/-- A flag word with A, L and G computed reads so. -/
theorem withAlg_reads (g : BitVec 15) :
    (withAlg g).getLsbD 5 = ((withAlg g).getLsbD 0 && !(withAlg g).getLsbD 1) ∧
    (withAlg g).getLsbD 6 = ((withAlg g).getLsbD 4 ^^ (withAlg g).getLsbD 3) ∧
    (withAlg g).getLsbD 7 = (!(withAlg g).getLsbD 1 && ((withAlg g).getLsbD 4 == (withAlg g).getLsbD 3)) := by
  simp only [getLsbD_withAlg]
  exact ⟨rfl, rfl, rfl⟩

/-- After `fl`, and wherever they are live, A, L and G of a read of R14 follow its C, Z, S and V (R134). -/
theorem readFlags_alg (cfg : Config) (f : FlagUpdate) (fl : FlagInputs) (g : BitVec 15)
    (h : f = .fl ∨ cfg.algMode = .live) : ∃ g', readFlags cfg (flagStep cfg f fl g) = withAlg g' := by
  cases hm : cfg.algMode with
  | live => exact ⟨_, by rw [readFlags, hm]⟩
  | stored =>
    obtain rfl : f = .fl := by simpa [hm] using h
    exact ⟨putFlags cfg fl g, by rw [readFlags, hm, flagStep, updateFlags, hm]⟩

/-- The flag line as a read of R14 sees it, from any word `base` whose bits are the stored ones wherever R14 stores them. -/
theorem flagsAfter_flagStep (cfg : Config) (k : Context) (f : FlagUpdate) (fl : FlagInputs) (g : BitVec 15) (base new : Word)
    (hb : ∀ n, n < 15 → n < 5 ∨ 7 < n → base.getLsbD n = g.getLsbD n)
    (hs : cfg.algMode = .stored → ∀ n, n < 15 → base.getLsbD n = g.getLsbD n)
    (hn : new = BitVec.ofBool k.bit ++ readFlags cfg (flagStep cfg f fl g)) : FlagsAfter cfg f fl base new := by
  have low : ∀ n, n < 15 → new.getLsbD n = (readFlags cfg (flagStep cfg f fl g)).getLsbD n := by
    intro n h
    rw [hn, BitVec.getLsbD_append, if_pos h]
  have key : ∀ n, n < 15 → n < 5 ∨ 7 < n → new.getLsbD n =
      if f = .nf then base.getLsbD n else (putFlags cfg fl g).getLsbD n := by
    intro n h h'
    rw [low n h, getLsbD_readFlags_of_not_alg _ _ h']
    cases f
    · rw [if_pos rfl, hb n h h']; rfl
    · rw [if_neg (by decide)]; exact getLsbD_updateFlags_of_not_alg _ _ _ h'
  have alg := fun h => readFlags_alg cfg f fl g h
  constructor
  · rw [key 0 (by omega) (by omega), getLsbD_putFlags, hb 0 (by omega) (by omega), if_pos rfl, otherwise_eq]
  · rw [key 1 (by omega) (by omega), getLsbD_putFlags]; rfl
  · rw [key 2 (by omega) (by omega), getLsbD_putFlags, hb 2 (by omega) (by omega)]; exact ite_self _
  · rw [key 3 (by omega) (by omega), getLsbD_putFlags, hb 3 (by omega) (by omega)]
    simp only [otherwise_eq]
    rfl
  · rw [key 4 (by omega) (by omega), getLsbD_putFlags]; rfl
  · intro n h1 h2
    rw [key n (by omega) (by omega), getLsbD_putFlags, hb n (by omega) (by omega), if_neg (show ¬n = 0 by omega),
      if_neg (show ¬n = 1 by omega), if_neg (show ¬n = 3 by omega), if_neg (show ¬n = 4 by omega), ite_self]
  · rintro rfl hm n h1 h2
    rw [low n (by omega), hs hm n (by omega), readFlags, hm]
    rfl
  all_goals
    intro h
    obtain ⟨g', hg⟩ := alg h
    simp only [low _ (show 5 < 15 by omega), low _ (show 6 < 15 by omega), low _ (show 7 < 15 by omega),
      low _ (show 0 < 15 by omega), low _ (show 1 < 15 by omega), low _ (show 3 < 15 by omega),
      low _ (show 4 < 15 by omega), hg]
  · exact (withAlg_reads g').1
  · exact (withAlg_reads g').2.1
  · exact (withAlg_reads g').2.2

/-- A read of R14 in either context, bit by bit, before any write. -/
theorem regOf_fg_bits (s : State) (k : Context) {n : Nat} (hn : n < 15) :
    (s.regOf k 14).getLsbD n = (readFlags s.cfg (s.regs k).fg).getLsbD n := getLsbD_read_fg _ _ _ hn

/-- Memory reads depend on the two lists alone. -/
theorem sameMemory_of_eq {s t : State} (hd : t.dataMem = s.dataMem) (hp : t.progMem = s.progMem) : SameMemory s t :=
  ⟨fun a => by rw [State.dataWord, hd]; rfl, fun a => by rw [State.progWord, hp]; rfl⟩

theorem SameMemory.refl (s : State) : SameMemory s s := ⟨fun _ => rfl, fun _ => rfl⟩

@[simp] theorem bit_ofBit (b : Bool) : (Context.ofBit b).bit = b := by cases b <;> rfl
@[simp] theorem ofBit_bit (k : Context) : Context.ofBit k.bit = k := by cases k <;> rfl

theorem context_eq_of_bit {k k' : Context} (h : k.bit = k'.bit) : k = k' := by
  rw [← ofBit_bit k, h, ofBit_bit]

/-- The stored flag word line 8 starts from, after a register write. -/
theorem fg_after_write (s : State) (d : Reg) (v : Word) :
    ((s.writeReg d v).regs s.K).fg = if d.val = 14 then writeFlags s.cfg (s.regs s.K).fg v else (s.regs s.K).fg := by
  rw [writeReg_regs_active]
  split
  · exact write_fg _ _ _ _ ‹_›
  · exact write_fg_of_ne _ _ _ _ ‹_›

/-- The state after the write-back and the flag update of a register destination: the active set. -/
theorem regs_after_reg (s : State) (d i : Reg) (v : Word) (f fl) (hi : i.val ≠ 14) :
    ((s.writeReg d v).flagLine s.K f fl).regOf s.K i = if i = d then v else s.regOf s.K i := by
  rw [State.regOf, flagLine_cfg, writeReg_cfg,
    read_congr _ _ ((s.writeReg d v).regs s.K) _ _ hi (flagLine_gpr _ _ _ _) (flagLine_pc _ _ _ _),
    writeReg_regs_active, read_write _ _ _ _ _ _ hi, State.regOf]

/-- The flags after the write-back and the flag update of a register destination. -/
theorem flags_after_reg (s : State) (d : Reg) (v : Word) (f fl) :
    FlagsAfter s.cfg f fl (if d.val = 14 then v else s.regOf s.K 14)
      (((s.writeReg d v).flagLine s.K f fl).regOf s.K 14) := by
  refine flagsAfter_flagStep s.cfg s.K f fl ((s.writeReg d v).regs s.K).fg _ _ ?_ ?_ ?_
  · intro n hn ha
    rw [fg_after_write]
    split
    · exact (getLsbD_writeFlags_of_not_alg _ _ _ hn ha).symm
    · rw [regOf_fg_bits _ _ hn, getLsbD_readFlags_of_not_alg _ _ ha]
  · intro hm n hn
    rw [fg_after_write]
    split
    · exact (getLsbD_writeFlags_stored _ _ _ hm hn).symm
    · rw [regOf_fg_bits _ _ hn, readFlags, hm]
  · rw [State.regOf, flagLine_cfg, writeReg_cfg, read_fg _ _ _ _ rfl, flagLine_fg, writeReg_cfg]

/-- Line 8 alone, under the `no` condition. -/
theorem flags_after_no (s : State) (f fl) :
    FlagsAfter s.cfg f fl (s.regOf s.K 14) ((s.flagLine s.K f fl).regOf s.K 14) := by
  refine flagsAfter_flagStep s.cfg s.K f fl (s.regs s.K).fg _ _ ?_ ?_ ?_
  · intro n hn ha
    rw [regOf_fg_bits _ _ hn, getLsbD_readFlags_of_not_alg _ _ ha]
  · intro hm n hn
    rw [regOf_fg_bits _ _ hn, readFlags, hm]
  · rw [State.regOf, flagLine_cfg, read_fg _ _ _ _ rfl, flagLine_fg]

theorem regs_after_no (s : State) (i : Reg) (f fl) (hi : i.val ≠ 14) :
    (s.flagLine s.K f fl).regOf s.K i = s.regOf s.K i := by
  rw [State.regOf, flagLine_cfg]
  exact read_congr _ _ _ _ _ hi (flagLine_gpr _ _ _ _) (flagLine_pc _ _ _ _)

/-! ### The context switch by program -/

/-- The set of the context that is left is not touched by the switch (40_execution_model R136). -/
theorem switchIf_regs_left (u : State) (k : Context) (o : Option Context) (h : ∀ k', o = some k' → k' ≠ k) :
    (u.switchIf o).regs k = u.regs k := by
  cases o with
  | none => rfl
  | some k' => cases k' <;> cases k <;> first | rfl | exact absurd rfl (h _ rfl)

@[simp] theorem switchIf_gpr (u : State) (k : Context) (o) : ((u.switchIf o).regs k).gpr = (u.regs k).gpr := by
  rcases o with _ | _ | _ <;> cases k <;> rfl

@[simp] theorem switchIf_pc (u : State) (k : Context) (o) : ((u.switchIf o).regs k).pc = (u.regs k).pc := by
  rcases o with _ | _ | _ <;> cases k <;> rfl

/-- The flags of a set over a switch: an entry clears the cause bit of the interrupt set (60_exceptions R267, R268). -/
theorem switchIf_fg (u : State) (k : Context) (o : Option Context) {n : Nat} :
    ((u.switchIf o).regs k).fg.getLsbD n =
      if n = 14 ∧ k = .interrupt ∧ o = some .interrupt then false else (u.regs k).fg.getLsbD n := by
  rcases o with _ | _ | _ <;> cases k <;>
    simp [State.switchIf, State.switchTo, State.setCause, State.regs, getLsbD_putBit, FG.I]

/-- The request of a register write: a written R14 whose bit 15 is not K (R127). -/
theorem requested_reg (s : State) (d : Reg) (v : Word) :
    s.requested (.reg d v) =
      if d.val = 14 ∧ v.msb ≠ s.K.bit then some (Context.ofBit v.msb) else none := rfl

theorem requested_ne (s : State) (d : Reg) (v : Word) (k' : Context) (h : s.requested (.reg d v) = some k') :
    k' ≠ s.K := by
  rw [requested_reg] at h
  split at h
  · rename_i hv
    obtain rfl := (Option.some.inj h).symm
    intro he
    exact hv.2 (by rw [← he, bit_ofBit])
  · cases h

/-- K after the switch (R127). -/
theorem switchIf_K (s u : State) (hu : u.K = s.K) (d : Reg) (v : Word) :
    (u.switchIf (s.requested (.reg d v))).K = if d.val = 14 then Context.ofBit v.msb else s.K := by
  rw [requested_reg]
  by_cases hd : d.val = 14
  · by_cases hv : v.msb = s.K.bit
    · simp [hd, hv, State.switchIf, hu]
    · simp [hd, hv, State.switchIf]
  · simp [hd, State.switchIf, hu]

/-- The two lines of R127 together with the flag update, for any destination register and either value of `halts`: the
register result of the spec. -/
theorem regResult_write (c : Cond) (hc : c ≠ .no) (f : FlagUpdate) (d : Reg) (r : Computed) (h : Bool) (s : State) (u : State)
    (hu : u = { (s.writeReg d r.res).flagLine s.K f r.flags with halted := h || s.halted }) :
    RegResult c f d r h s (u.switchIf (s.requested (.reg d r.res))) := by
  have hregs : ∀ k, u.regs k = ((s.writeReg d r.res).flagLine s.K f r.flags).regs k := by
    intro k; rw [hu]; cases k <;> rfl
  have hcfg : u.cfg = s.cfg := by rw [hu]; simp
  have hK : u.K = s.K := by rw [hu]; simp
  have left := switchIf_regs_left u s.K (s.requested (.reg d r.res)) (requested_ne s d r.res)
  have ro : ∀ i, (u.switchIf (s.requested (.reg d r.res))).regOf s.K i =
      ((s.writeReg d r.res).flagLine s.K f r.flags).regOf s.K i := by
    intro i
    rw [State.regOf, left, switchIf_cfg, hcfg, hregs, State.regOf, flagLine_cfg, writeReg_cfg]
  have kept : ∀ k, k ≠ s.K → u.regs k = s.regs k := by
    intro k hk
    rw [hregs, flagLine_regs_of_ne _ _ _ hk, writeReg_regs_of_ne _ _ _ hk]
  constructor
  · intro i hi
    rw [ro, regs_after_reg _ _ _ _ _ _ hi]
    simp [hc]
  · rw [ro]
    simpa [hc] using flags_after_reg s d r.res f r.flags
  · rw [switchIf_K s u hK]
    simp [hc]
  · constructor
    · intro k hk; rw [switchIf_gpr, kept k hk]
    · intro k hk; rw [switchIf_pc, kept k hk]
    · intro k hk n hn
      rw [switchIf_fg, kept k hk]
      have he : (k = .interrupt ∧ s.requested (.reg d r.res) = some .interrupt) ↔
          (k = .interrupt ∧ (u.switchIf (s.requested (.reg d r.res))).K = .interrupt) := by
        constructor
        · rintro ⟨h1, h2⟩
          rw [h2]
          exact ⟨h1, rfl⟩
        · rintro ⟨h1, h2⟩
          refine ⟨h1, ?_⟩
          cases ho : s.requested (.reg d r.res) with
          | none =>
            rw [ho] at h2
            exact absurd (by rw [h1, ← h2]; exact hK) hk
          | some k' =>
            rw [ho] at h2
            simpa [State.switchIf] using h2
      simp only [he]
  · rw [switchIf_halted, hu]
  · exact sameMemory_of_eq (by rw [switchIf_dataMem, hu]; simp) (by rw [switchIf_progMem, hu]; simp)
  · rw [switchIf_cfg, hcfg]
  · rw [switchIf_inputs, hu]; simp
  · rw [switchIf_held, hu]; simp

/-- The register result under `no`: the flag update alone (R124). -/
theorem regResult_no (f : FlagUpdate) (d : Reg) (r : Computed) (s : State) :
    RegResult .no f d r false s (s.flagLine s.K f r.flags) := by
  constructor
  · intro i hi
    rw [regs_after_no _ _ _ _ hi]
    simp
  · simpa using flags_after_no s f r.flags
  · simp
  · constructor
    · intro k hk; rw [flagLine_regs_of_ne _ _ _ hk]
    · intro k hk; rw [flagLine_regs_of_ne _ _ _ hk]
    · intro k hk n hn
      rw [flagLine_regs_of_ne _ _ _ hk, if_neg]
      rintro ⟨-, h1, h2⟩
      exact hk (by rw [h1, ← h2]; simp)
  · simp
  · exact sameMemory_of_eq (by simp) (by simp)
  · simp
  · simp
  · simp

/-- Everything lines 7 to 9 can do with a register destination and no reaction. -/
theorem finish_reg_spec (c : Cond) (f : FlagUpdate) (d : Reg) (r : Computed) (s : State) :
    ∃ t, finish c f (.reg d r.res) r.flags .none s = .next t ∧ RegResult c f d r false s t ∧ NoDeviceNoDraw s t := by
  by_cases hc : c = .no
  · subst hc
    exact ⟨_, rfl, regResult_no f d r s, ⟨by simp, by simp⟩⟩
  · rw [finish, if_neg hc]
    refine ⟨_, rfl, ?_, ⟨by simp [State.writeBack], by simp [State.writeBack]⟩⟩
    refine regResult_write c hc f d r false s _ ?_
    simp only [react_none, State.writeBack, Bool.false_or]
    rw [show s.halted = ((s.writeReg d r.res).flagLine s.K f r.flags).halted by simp]

theorem whenHolds_of_holds {c : Cond} {s : State} (h : condHolds c s.fg = true) (b : Result) : whenHolds c s b = b := by
  rw [whenHolds, if_pos h]

theorem whenHolds_of_fails {c : Cond} {s : State} (h : condHolds c s.fg = false) (b : Result) :
    whenHolds c s b = .next s := by
  rw [whenHolds, if_neg (by simp [h])]

/-- What an executing instruction with a computed register result does. -/
theorem finishReg_spec (c : Cond) (f : FlagUpdate) (d : Reg) (r : Computed) (s : State) (h : condHolds c s.fg = true) :
    ∃ t, finishReg c f d r s = .next t ∧ RegResult c f d r false s t ∧ NoDeviceNoDraw s t := by
  rw [finishReg, whenHolds_of_holds h]
  exact finish_reg_spec c f d r s

/-- What an executing bit instruction does where the CPU does not react. -/
theorem finishBit_spec (c : Cond) (f : FlagUpdate) (x : Reg) (b : BitNo) (v : Bool) (s : State)
    (h : condHolds c s.fg = true) :
    ∃ t, finishBit c f x b v .none s = .next t ∧
      RegResult c f x ⟨putBit (s.x x) b.val v, bitFlags v⟩ false s t ∧ NoDeviceNoDraw s t := by
  rw [finishBit, whenHolds_of_holds h]
  exact finish_reg_spec c f x ⟨putBit (s.x x) b.val v, bitFlags v⟩ s

/-- What halting by a register write does (60_exceptions R276). -/
theorem finish_halt_spec (c : Cond) (hc : c ≠ .no) (f : FlagUpdate) (d : Reg) (r : Computed) (s : State) :
    ∃ t, finish c f (.reg d r.res) r.flags .halt s = .next t ∧ RegResult c f d r true s t ∧ NoDeviceNoDraw s t := by
  rw [finish, if_neg hc]
  refine ⟨_, rfl, ?_, ⟨by simp [State.writeBack], by simp [State.writeBack]⟩⟩
  exact regResult_write c hc f d r true s _ rfl

end Sys2Proof.Machine
end

