-- ==== Sys2Proof/Laws/Memory.lean ====
section
/-! SUPPORT. Memory: a read after a write, and that every memory operation keeps the canonical form. -/

namespace Sys2Proof.Machine

/-- A written address reads as written, every other address as before. -/
theorem Memory.read_write (m : Memory) (a b : Nat) (v : Word) :
    (Memory.write m a v).read b = if b = a then some v else m.read b := by
  induction m with
  | nil => simp [Memory.write, Memory.read]
  | cons e m ih =>
    obtain ⟨c, w⟩ := e
    simp only [Memory.write]
    split_ifs with h1 h2 h3 h3 h3 <;> simp only [Memory.read, ih] <;> split_ifs <;> first | rfl | omega

/-- A write at or above `lo` keeps a list rising from `lo`. -/
theorem Memory.risingFrom_write (m : Memory) (lo a : Nat) (v : Word) (hlo : lo ≤ a) (ha : a < 65536)
    (h : Memory.risingFrom lo m = true) : Memory.risingFrom lo (Memory.write m a v) = true := by
  induction m generalizing lo with
  | nil => simp [Memory.write, Memory.risingFrom, hlo, ha]
  | cons e m ih =>
    obtain ⟨c, w⟩ := e
    simp only [Memory.risingFrom, Bool.and_eq_true, decide_eq_true_eq] at h
    simp only [Memory.write]
    split_ifs with h1 h2
    · simp only [Memory.risingFrom, Bool.and_eq_true, decide_eq_true_eq]
      exact ⟨⟨hlo, ha⟩, ⟨h1, h.1.2⟩, h.2⟩
    · subst h2
      simp only [Memory.risingFrom, Bool.and_eq_true, decide_eq_true_eq]
      exact ⟨⟨hlo, ha⟩, h.2⟩
    · simp only [Memory.risingFrom, Bool.and_eq_true, decide_eq_true_eq]
      exact ⟨h.1, ih (c + 1) (by omega) h.2⟩

/-- A write keeps the canonical form. -/
theorem Memory.wf_write (m : Memory) (a v : Word) (h : m.wf = true) : (Memory.write m a.toNat v).wf = true :=
  Memory.risingFrom_write m 0 a.toNat v (Nat.zero_le _) a.isLt h

/-- Reset memory has the canonical form. -/
theorem reset_memory_wf : State.reset.dataMem.wf = true ∧ State.reset.progMem.wf = true := ⟨rfl, rfl⟩

/-- A store keeps the canonical form of data memory. -/
theorem storeWord_wf (s : State) (a v : Word) (h : s.dataMem.wf = true) : (s.storeWord a v).dataMem.wf = true := by
  simp only [State.storeWord]
  split
  · exact h
  · exact Memory.wf_write _ _ _ h

/-- Placing a word where a fetch reads keeps the canonical form of both memories. -/
theorem placeWord_wf (s : State) (a v : Word) (hd : s.dataMem.wf = true) (hp : s.progMem.wf = true) :
    (s.placeWord a v).dataMem.wf = true ∧ (s.placeWord a v).progMem.wf = true := by
  simp only [State.placeWord]
  cases s.cfg.addressSpace
  · exact ⟨Memory.wf_write _ _ _ hd, hp⟩
  · exact ⟨hd, Memory.wf_write _ _ _ hp⟩

/-- A data word after a store: at a plain address the stored word there, every other word as before; a store to a device
changes no word (20_memory R64). -/
theorem dataWord_storeWord (s : State) (a v b : Word) :
    (s.storeWord a v).dataWord b = if s.isIo a = false ∧ b = a then v else s.dataWord b := by
  simp only [State.storeWord]
  cases h : s.isIo a
  · simp only [State.dataWord, Memory.read_write, Bool.false_eq_true, if_false, BitVec.toNat_inj, true_and]
    split_ifs <;> rfl
  · simp only [if_true, Bool.true_eq_false, false_and, if_false, State.dataWord]

end Sys2Proof.Machine
end

