-- ==== Sys2Proof/Laws/Exec.lean ====
section
/-! SUPPORT. What an instruction can do, said once: `exec_cases` inverts `exec`, `finish_cases` inverts lines 7 to 9,
`step_cases` inverts a step; and the result lemmas of the two destinations that are no register. -/

namespace Sys2Proof.Machine

theorem whenHolds_next {c : Cond} {s t : State} {b : Result} (h : whenHolds c s b = .next t) :
    t = s ∨ (condHolds c s.fg = true ∧ b = .next t) := by
  cases hc : condHolds c s.fg
  · rw [whenHolds_of_fails hc] at h
    exact .inl (Host.Outcome.next.inj h).symm
  · rw [whenHolds_of_holds hc] at h
    exact .inr ⟨rfl, h⟩

/-- The states line 7 may start from: the state itself, the state after a load's read, or after a draw. -/
inductive Prepared (s : State) : State → Prop where
  | same : Prepared s s
  | loaded (a : Word) : Prepared s (s.afterLoad a)
  | drew : Prepared s { s with draws := s.draws + 1 }

/-- An executed instruction that has a successor: its lines 7 to 9. A memory destination is a store's, a reaction is asked
for as 60_exceptions R275 and R276 say. -/
structure Finishes (i : Instr) (s t : State) (u : State) (d : Dest) (fl : FlagInputs) (r : Reaction) : Prop where
  holds : condHolds i.cond s.fg = true
  prepared : Prepared s u
  result : finish i.cond i.flagUpdate d fl r u = .next t
  mem : ∀ a v, d = .mem a v → isStore i = true
  soft : r = .softReset → i.cond = .no ∨ asksSoftReset i s = true
  halt : r = .halt → i.cond = .no ∨ asksHalt i s = true

theorem Finishes.of_reg {i : Instr} {s t : State} {d : Reg} {r : Computed}
    (h : finishReg i.cond i.flagUpdate d r s = .next t) : t = s ∨ ∃ u d fl r, Finishes i s t u d fl r := by
  rcases whenHolds_next h with h | ⟨hc, h⟩
  · exact .inl h
  · exact .inr ⟨s, _, _, .none, hc, .same, h, nofun, nofun, nofun⟩

theorem moveReaction_softReset {x : Reg} {b : BitNo} {v : Bool} (h : moveReaction x b v = .softReset) :
    x = 14 ∧ b = 12 ∧ v = true := by
  simp only [moveReaction] at h
  split_ifs at h with h1 h2
  exact ⟨Fin.ext h1.1, Fin.ext h2, h1.2⟩

theorem moveReaction_halt {x : Reg} {b : BitNo} {v : Bool} (h : moveReaction x b v = .halt) :
    x = 14 ∧ b = 13 ∧ v = true := by
  simp only [moveReaction] at h
  split_ifs at h with h1 h2 h3
  exact ⟨Fin.ext h1.1, Fin.ext h3, h1.2⟩

/-- If `exec` answers a next state, the condition failed and nothing happened, or lines 7 to 9 ran. -/
theorem exec_cases {i : Instr} {s t : State} (h : exec i s = .next t) :
    t = s ∨ ∃ u d fl r, Finishes i s t u d fl r := by
  cases i with
  | load c f x y =>
    rcases whenHolds_next h with h | ⟨hc, h⟩
    · exact .inl h
    · exact .inr ⟨_, _, _, _, hc, .loaded _, h, nofun, nofun, nofun⟩
  | store c f x y =>
    rcases whenHolds_next h with h | ⟨hc, h⟩
    · exact .inl h
    · exact .inr ⟨_, _, _, _, hc, .same, h, fun _ _ _ => rfl, nofun, nofun⟩
  | movXBit c f x b =>
    rcases whenHolds_next h with h | ⟨hc, h⟩
    · exact .inl h
    · exact .inr ⟨_, _, _, _, hc, .same, h, nofun, nofun, nofun⟩
  | reservedOp4 c f p =>
    rcases whenHolds_next h with h | ⟨_, h⟩
    · exact .inl h
    · cases h
  | reservedIncPc c f =>
    rcases whenHolds_next h with h | ⟨_, h⟩
    · exact .inl h
    · cases h
  | movBitX c f x b =>
    rcases whenHolds_next h with h | ⟨hc, h⟩
    · exact .inl h
    · refine .inr ⟨_, _, _, _, hc, .same, h, nofun, ?_, ?_⟩
      · intro hr
        obtain ⟨h1, h2, h3⟩ := moveReaction_softReset hr
        by_cases hn : c = .no
        · exact .inl hn
        · exact .inr (by simp_all [asksSoftReset, movesOneToFG])
      · intro hr
        obtain ⟨h1, h2, h3⟩ := moveReaction_halt hr
        by_cases hn : c = .no
        · exact .inl hn
        · exact .inr (by simp_all [asksHalt, movesOneToFG])
  | setBit c f x b =>
    rcases whenHolds_next h with h | ⟨hc, h⟩
    · exact .inl h
    · refine .inr ⟨_, _, _, _, hc, .same, h, nofun, ?_, ?_⟩
      · intro hr
        obtain ⟨h1, h2, h3⟩ := moveReaction_softReset hr
        by_cases hn : c = .no
        · exact .inl hn
        · exact .inr (by simp_all [asksSoftReset, movesOneToFG])
      · intro hr
        obtain ⟨h1, h2, h3⟩ := moveReaction_halt hr
        by_cases hn : c = .no
        · exact .inl hn
        · exact .inr (by simp_all [asksHalt, movesOneToFG])
  | clearBit c f x b =>
    rcases whenHolds_next h with h | ⟨hc, h⟩
    · exact .inl h
    · exact .inr ⟨_, _, _, _, hc, .same, h, nofun, nofun, nofun⟩
  | notBit c f x b =>
    rcases whenHolds_next h with h | ⟨hc, h⟩
    · exact .inl h
    · exact .inr ⟨_, _, _, _, hc, .same, h, nofun, nofun, nofun⟩
  | divReg c f x y =>
    simp only [exec, execDivReg] at h
    split_ifs at h
    · rcases whenHolds_next h with h | ⟨hc, h⟩
      · exact .inl h
      · simp only [finishOpenDivision] at h
        split at h
        · exact .inr ⟨_, _, _, _, hc, .drew, h, nofun, nofun, nofun⟩
        · cases h
    · exact Finishes.of_reg h
  | idivReg c f x y =>
    simp only [exec, execIdivReg] at h
    split_ifs at h
    · rcases whenHolds_next h with h | ⟨hc, h⟩
      · exact .inl h
      · simp only [finishOpenDivision] at h
        split at h
        · exact .inr ⟨_, _, _, _, hc, .drew, h, nofun, nofun, nofun⟩
        · cases h
    · exact Finishes.of_reg h
  | inc c f x =>
    simp only [exec, execInc] at h
    split_ifs at h
    · rcases whenHolds_next h with h | ⟨_, h⟩
      · exact .inl h
      · cases h
    · exact Finishes.of_reg h
  | _ => exact Finishes.of_reg h

/-- If lines 7 to 9 answer a next state, it is one of two. -/
theorem finish_cases {c : Cond} {f : FlagUpdate} {d : Dest} {fl : FlagInputs} {r : Reaction} {s t : State}
    (h : finish c f d fl r s = .next t) :
    (c = .no ∧ t = s.flagLine s.K f fl) ∨
    (c ≠ .no ∧ t = (((s.writeBack d).flagLine s.K f fl).react r).switchIf (s.requested d)) := by
  unfold finish at h
  split_ifs at h with hc
  · exact .inl ⟨hc, (Host.Outcome.next.inj h).symm⟩
  · exact .inr ⟨hc, (Host.Outcome.next.inj h).symm⟩

/-- If a step answers a next state: the reset input, a halted processor, or an instruction ran. -/
theorem step_cases {s t : State} (h : step s = .next t) :
    (s.lines.reset = true ∧ t = s.consumeInputs.processorReset) ∨
    (s.lines.reset = false ∧ s.halted = true ∧ t = s.consumeInputs) ∨
    (s.lines.reset = false ∧ s.halted = false ∧
      runInstruction (s.consumeInputs.sampleInterrupt s.lines.irq) = .next t) := by
  unfold step at h
  split_ifs at h with h1 h2
  · exact .inl ⟨h1, (Host.Outcome.next.inj h).symm⟩
  · exact .inr (.inl ⟨by simpa using h1, h2, (Host.Outcome.next.inj h).symm⟩)
  · exact .inr (.inr ⟨by simpa using h1, by simpa using h2, h⟩)

/-- If an instruction ran to a next state, its word was fetched from no device and its meaning answered. -/
theorem runInstruction_cases {s t : State} (h : runInstruction s = .next t) :
    s.fetchIsIo (s.regs s.K).pc = false ∧ exec (decodeWord (s.fetchWord (s.regs s.K).pc)) s.advancePc = .next t := by
  unfold runInstruction at h
  split_ifs at h with h1
  exact ⟨by simpa using h1, h⟩

theorem fg_writeX (s : State) (b : Bool) : ((s.writeX b).regs s.K).fg = putBit (s.regs s.K).fg 2 b := by
  rw [writeX_regs_active]

/-- What `mov X, Rx:Imm4` does in lines 7 to 9. -/
theorem finish_flagX_spec (c : Cond) (f : FlagUpdate) (b : Bool) (fl : FlagInputs) (s : State) :
    ∃ t, finish c f (.flagX b) fl .none s = .next t ∧ XResult c f b fl s t ∧ NoDeviceNoDraw s t := by
  by_cases hc : c = .no
  · rw [finish, if_pos hc]
    refine ⟨_, rfl, ?_, ⟨by simp, by simp⟩⟩
    constructor
    · intro i hi; exact regs_after_no _ _ _ _ hi
    · exact ⟨_, fun n _ => by simp [hc], flags_after_no s f fl⟩
    · simp
    · intro k hk; exact flagLine_regs_of_ne _ _ _ hk
    · simp
    · exact sameMemory_of_eq (by simp) (by simp)
    · simp
    · simp
    · simp
  · rw [finish, if_neg hc]
    refine ⟨_, rfl, ?_, ⟨by simp [State.writeBack], by simp [State.writeBack]⟩⟩
    simp only [State.requested, State.switchIf, react_none, State.writeBack]
    constructor
    · intro i hi
      rw [State.regOf, flagLine_cfg, writeX_cfg,
        read_congr _ _ ((s.writeX b).regs s.K) _ _ hi (flagLine_gpr _ _ _ _) (flagLine_pc _ _ _ _),
        read_congr _ _ (s.regs s.K) _ _ hi (by rw [writeX_regs_active]) (by rw [writeX_regs_active]), State.regOf]
    · refine ⟨putBit (s.regOf s.K 14) 2 b, fun n _ => by simp [hc, getLsbD_putBit], ?_⟩
      refine flagsAfter_flagStep s.cfg s.K f fl ((s.writeX b).regs s.K).fg _ _ ?_ ?_ ?_
      · intro n hn ha
        rw [fg_writeX, getLsbD_putBit, getLsbD_putBit, regOf_fg_bits _ _ hn, getLsbD_readFlags_of_not_alg _ _ ha]
        simp
      · intro hm n hn
        rw [fg_writeX, getLsbD_putBit, getLsbD_putBit, regOf_fg_bits _ _ hn, readFlags, hm]
        simp
      · rw [State.regOf, flagLine_cfg, writeX_cfg, read_fg _ _ _ _ rfl, flagLine_fg, writeX_cfg]
    · simp
    · intro k hk; rw [flagLine_regs_of_ne _ _ _ hk, writeX_regs_of_ne _ _ hk]
    · simp
    · exact sameMemory_of_eq (by simp) (by simp)
    · simp
    · simp
    · simp

/-- What a store does in lines 7 to 9, `no` apart. -/
theorem finish_mem_spec (c : Cond) (hc : c ≠ .no) (f : FlagUpdate) (a v : Word) (fl : FlagInputs) (s : State) :
    ∃ t, finish c f (.mem a v) fl .none s = .next t ∧ FlagsOnly f fl s t ∧
      t.dataMem = (s.storeWord a v).dataMem ∧ t.ioLog = (s.storeWord a v).ioLog := by
  rw [finish, if_neg hc]
  refine ⟨_, rfl, ?_, by simp [State.writeBack], by simp [State.writeBack]⟩
  simp only [State.requested, State.switchIf, react_none, State.writeBack]
  constructor
  · intro i hi
    rw [State.regOf, flagLine_cfg, storeWord_cfg,
      read_congr _ _ ((s.storeWord a v).regs s.K) _ _ hi (flagLine_gpr _ _ _ _) (flagLine_pc _ _ _ _), storeWord_regs,
      State.regOf]
  · refine flagsAfter_flagStep s.cfg s.K f fl (s.regs s.K).fg _ _ ?_ ?_ ?_
    · intro n hn ha
      rw [regOf_fg_bits _ _ hn, getLsbD_readFlags_of_not_alg _ _ ha]
    · intro hm n hn
      rw [regOf_fg_bits _ _ hn, readFlags, hm]
    · rw [State.regOf, flagLine_cfg, storeWord_cfg, read_fg _ _ _ _ rfl, flagLine_fg, storeWord_cfg, storeWord_regs]
  · simp
  · intro k hk; rw [flagLine_regs_of_ne _ _ _ hk, storeWord_regs]
  · simp
  · exact (sameMemory_of_eq (s := { s with dataMem := [] }) (by rfl) (by simp) :
      SameMemory { s with dataMem := [] } { (s.storeWord a v).flagLine s.K f fl with dataMem := [] }).prog
  · simp
  · simp
  · simp
  · simp

/-- What a store does in lines 7 to 9 under `no`: the flag update alone (40_execution_model R124, R130). -/
theorem finish_mem_no_spec (f : FlagUpdate) (a v : Word) (fl : FlagInputs) (s : State) :
    ∃ t, finish .no f (.mem a v) fl .none s = .next t ∧ FlagsOnly f fl s t ∧ t.dataMem = s.dataMem ∧ t.ioLog = s.ioLog := by
  refine ⟨s.flagLine s.K f fl, rfl, ?_, by simp, by simp⟩
  constructor
  · intro i hi; exact regs_after_no _ _ _ _ hi
  · exact flags_after_no s f fl
  · simp
  · intro k hk; exact flagLine_regs_of_ne _ _ _ hk
  · simp
  · intro a; rw [State.progWord, State.progWord, flagLine_progMem]
  · simp
  · simp
  · simp
  · simp

end Sys2Proof.Machine
end

