-- ==== Sys2Proof/Laws/Encoding.lean ====
section
/-! SUPPORT. The row and the fields of a word built by each layout of the encoder (30_encoding R92). -/

namespace Sys2Proof.Machine

/-- A word is in a row when the bits the mask keeps are the pattern's. -/
theorem and_eq_of_bits (w mask pattern : Word)
    (h : ∀ n, n < 16 → (w.getLsbD n && mask.getLsbD n) = pattern.getLsbD n) : w &&& mask = pattern := by
  apply BitVec.eq_of_getLsbD_eq
  intro n hn
  rw [BitVec.getLsbD_and, h n hn]

theorem encodeRR4_word (op : BitVec 4) (c : Cond) (f : FlagUpdate) (y x : Fin 16) :
    WordRR4 (encodeRR4 op c f y x) (op.setWidth 16 <<< 8) y x := by
  constructor
  · apply and_eq_of_bits
    intro n hn
    simp only [encodeRR4, BitVec.getLsbD_append]
    interval_cases n <;> simp
  · apply Fin.ext
    show ((encodeRR4 op c f y x).extractLsb' 4 4).toNat = y.val
    rw [show (encodeRR4 op c f y x).extractLsb' 4 4 = BitVec.ofNat 4 y.val from ?_]
    · simp
    · apply BitVec.eq_of_getLsbD_eq
      intro n hn
      rw [BitVec.getLsbD_extractLsb', decide_eq_true hn, Bool.true_and, encodeRR4, BitVec.getLsbD_append, if_neg (by omega),
        BitVec.getLsbD_append, if_pos (by omega), Nat.add_sub_cancel_left]
  · apply Fin.ext
    show ((encodeRR4 op c f y x).extractLsb' 0 4).toNat = x.val
    rw [show (encodeRR4 op c f y x).extractLsb' 0 4 = BitVec.ofNat 4 x.val from ?_]
    · simp
    · apply BitVec.eq_of_getLsbD_eq
      intro n hn
      rw [BitVec.getLsbD_extractLsb', decide_eq_true hn, Bool.true_and, encodeRR4, BitVec.getLsbD_append, if_pos (by omega),
        Nat.zero_add]

theorem encodeB8_word (op : BitVec 4) (c : Cond) (f : FlagUpdate) (b : Byte) :
    WordB8 (encodeB8 op c f b) (op.setWidth 16 <<< 8) b := by
  constructor
  · apply and_eq_of_bits
    intro n hn
    simp only [encodeB8, BitVec.getLsbD_append]
    interval_cases n <;> simp
  · apply BitVec.eq_of_getLsbD_eq
    intro n hn
    rw [byteField, BitVec.getLsbD_extractLsb', decide_eq_true hn, Bool.true_and, encodeB8, BitVec.getLsbD_append,
      if_pos (by omega), Nat.zero_add]

theorem encodeRR3_word (op : BitVec 6) (c : Cond) (f : FlagUpdate) (y x : Fin 8) :
    WordRR3 (encodeRR3 op c f y x) (op.setWidth 16 <<< 6) y x := by
  constructor
  · apply and_eq_of_bits
    intro n hn
    simp only [encodeRR3, BitVec.getLsbD_append]
    interval_cases n <;> simp
  · apply Fin.ext
    show ((encodeRR3 op c f y x).extractLsb' 3 3).toNat = y.val
    rw [show (encodeRR3 op c f y x).extractLsb' 3 3 = BitVec.ofNat 3 y.val from ?_]
    · simp
    · apply BitVec.eq_of_getLsbD_eq
      intro n hn
      rw [BitVec.getLsbD_extractLsb', decide_eq_true hn, Bool.true_and, encodeRR3, BitVec.getLsbD_append, if_neg (by omega),
        BitVec.getLsbD_append, if_pos (by omega), Nat.add_sub_cancel_left]
  · apply Fin.ext
    show ((encodeRR3 op c f y x).extractLsb' 0 3).toNat = x.val
    rw [show (encodeRR3 op c f y x).extractLsb' 0 3 = BitVec.ofNat 3 x.val from ?_]
    · simp
    · apply BitVec.eq_of_getLsbD_eq
      intro n hn
      rw [BitVec.getLsbD_extractLsb', decide_eq_true hn, Bool.true_and, encodeRR3, BitVec.getLsbD_append, if_pos (by omega),
        Nat.zero_add]

theorem encodeR4_word (op : BitVec 8) (c : Cond) (f : FlagUpdate) (x : Fin 16) :
    WordR4 (encodeR4 op c f x) (op.setWidth 16 <<< 4) x := by
  constructor
  · apply and_eq_of_bits
    intro n hn
    simp only [encodeR4, BitVec.getLsbD_append]
    interval_cases n <;> simp
  · apply Fin.ext
    show ((encodeR4 op c f x).extractLsb' 0 4).toNat = x.val
    rw [show (encodeR4 op c f x).extractLsb' 0 4 = BitVec.ofNat 4 x.val from ?_]
    · simp
    · apply BitVec.eq_of_getLsbD_eq
      intro n hn
      rw [BitVec.getLsbD_extractLsb', decide_eq_true hn, Bool.true_and, encodeR4, BitVec.getLsbD_append, if_pos (by omega),
        Nat.zero_add]

end Sys2Proof.Machine
end

