-- ==== Sys2Proof/Laws/PerInstr.lean ====
section
/-! SUPPORT. Per-instruction lemmas: the condition and the f bit of every instruction stand in the same four bits of its word
(30_encoding R91). -/

namespace Sys2Proof.Laws

/-- The top four bits of each layout (30_encoding R92). -/
theorem encodeRR4_top (op c f y x) : (encodeRR4 op c f y x).extractLsb' 12 4 = condCode c ++ flagCode f := by
  apply BitVec.eq_of_getLsbD_eq
  intro n hn
  rw [BitVec.getLsbD_extractLsb', decide_eq_true hn, Bool.true_and, encodeRR4, BitVec.getLsbD_append,
    if_neg (by omega), BitVec.getLsbD_append, if_neg (by omega), BitVec.getLsbD_append, if_neg (by omega)]
  congr 1; omega

theorem encodeB8_top (op c f b) : (encodeB8 op c f b).extractLsb' 12 4 = condCode c ++ flagCode f := by
  apply BitVec.eq_of_getLsbD_eq
  intro n hn
  rw [BitVec.getLsbD_extractLsb', decide_eq_true hn, Bool.true_and, encodeB8, BitVec.getLsbD_append,
    if_neg (by omega), BitVec.getLsbD_append, if_neg (by omega)]
  congr 1; omega

theorem encodeRR3_top (op c f y x) : (encodeRR3 op c f y x).extractLsb' 12 4 = condCode c ++ flagCode f := by
  apply BitVec.eq_of_getLsbD_eq
  intro n hn
  rw [BitVec.getLsbD_extractLsb', decide_eq_true hn, Bool.true_and, encodeRR3, BitVec.getLsbD_append,
    if_neg (by omega), BitVec.getLsbD_append, if_neg (by omega), BitVec.getLsbD_append, if_neg (by omega)]
  congr 1; omega

theorem encodeR4_top (op c f x) : (encodeR4 op c f x).extractLsb' 12 4 = condCode c ++ flagCode f := by
  apply BitVec.eq_of_getLsbD_eq
  intro n hn
  rw [BitVec.getLsbD_extractLsb', decide_eq_true hn, Bool.true_and, encodeR4, BitVec.getLsbD_append,
    if_neg (by omega), BitVec.getLsbD_append, if_neg (by omega)]
  congr 1; omega

namespace HeaderBits

/-- The condition and the f bit of the instruction are the top four bits of its word (30_encoding R91). -/
def Statement (i : Instr) : Prop := (encode i).extractLsb' 12 4 = condCode i.cond ++ flagCode i.flagUpdate

theorem movReg (c : Cond) (f : FlagUpdate) (x y : Reg) :
    Statement (.movReg c f x y) := encodeRR4_top _ _ _ _ _

theorem load (c : Cond) (f : FlagUpdate) (x y : Reg) :
    Statement (.load c f x y) := encodeRR4_top _ _ _ _ _

theorem store (c : Cond) (f : FlagUpdate) (x y : Reg) :
    Statement (.store c f x y) := encodeRR4_top _ _ _ _ _

theorem movXBit (c : Cond) (f : FlagUpdate) (x : Reg) (b : BitNo) :
    Statement (.movXBit c f x b) := encodeRR4_top _ _ _ _ _

theorem reservedOp4 (c : Cond) (f : FlagUpdate) (p : Byte) :
    Statement (.reservedOp4 c f p) := encodeB8_top _ _ _ _

theorem movBitX (c : Cond) (f : FlagUpdate) (x : Reg) (b : BitNo) :
    Statement (.movBitX c f x b) := encodeRR4_top _ _ _ _ _

theorem clearBit (c : Cond) (f : FlagUpdate) (x : Reg) (b : BitNo) :
    Statement (.clearBit c f x b) := encodeRR4_top _ _ _ _ _

theorem setBit (c : Cond) (f : FlagUpdate) (x : Reg) (b : BitNo) :
    Statement (.setBit c f x b) := encodeRR4_top _ _ _ _ _

theorem notBit (c : Cond) (f : FlagUpdate) (x : Reg) (b : BitNo) :
    Statement (.notBit c f x b) := encodeRR4_top _ _ _ _ _

theorem movLow (c : Cond) (f : FlagUpdate) (imm : Byte) :
    Statement (.movLow c f imm) := encodeB8_top _ _ _ _

theorem movHigh (c : Cond) (f : FlagUpdate) (imm : Byte) :
    Statement (.movHigh c f imm) := encodeB8_top _ _ _ _

theorem addPc (c : Cond) (f : FlagUpdate) (simm : Byte) :
    Statement (.addPc c f simm) := encodeB8_top _ _ _ _

theorem addReg (c : Cond) (f : FlagUpdate) (x y : LowReg) :
    Statement (.addReg c f x y) := encodeRR3_top _ _ _ _ _

theorem subReg (c : Cond) (f : FlagUpdate) (x y : LowReg) :
    Statement (.subReg c f x y) := encodeRR3_top _ _ _ _ _

theorem andReg (c : Cond) (f : FlagUpdate) (x y : LowReg) :
    Statement (.andReg c f x y) := encodeRR3_top _ _ _ _ _

theorem orReg (c : Cond) (f : FlagUpdate) (x y : LowReg) :
    Statement (.orReg c f x y) := encodeRR3_top _ _ _ _ _

theorem xorReg (c : Cond) (f : FlagUpdate) (x y : LowReg) :
    Statement (.xorReg c f x y) := encodeRR3_top _ _ _ _ _

theorem shlReg (c : Cond) (f : FlagUpdate) (x y : LowReg) :
    Statement (.shlReg c f x y) := encodeRR3_top _ _ _ _ _

theorem shrReg (c : Cond) (f : FlagUpdate) (x y : LowReg) :
    Statement (.shrReg c f x y) := encodeRR3_top _ _ _ _ _

theorem sarReg (c : Cond) (f : FlagUpdate) (x y : LowReg) :
    Statement (.sarReg c f x y) := encodeRR3_top _ _ _ _ _

theorem mulReg (c : Cond) (f : FlagUpdate) (x y : LowReg) :
    Statement (.mulReg c f x y) := encodeRR3_top _ _ _ _ _

theorem divReg (c : Cond) (f : FlagUpdate) (x y : LowReg) :
    Statement (.divReg c f x y) := encodeRR3_top _ _ _ _ _

theorem imulReg (c : Cond) (f : FlagUpdate) (x y : LowReg) :
    Statement (.imulReg c f x y) := encodeRR3_top _ _ _ _ _

theorem idivReg (c : Cond) (f : FlagUpdate) (x y : LowReg) :
    Statement (.idivReg c f x y) := encodeRR3_top _ _ _ _ _

theorem shlImm (c : Cond) (f : FlagUpdate) (x : LowReg) (i : Fin 8) :
    Statement (.shlImm c f x i) := encodeRR3_top _ _ _ _ _

theorem shrImm (c : Cond) (f : FlagUpdate) (x : LowReg) (i : Fin 8) :
    Statement (.shrImm c f x i) := encodeRR3_top _ _ _ _ _

theorem sarImm (c : Cond) (f : FlagUpdate) (x : LowReg) (i : Fin 8) :
    Statement (.sarImm c f x i) := encodeRR3_top _ _ _ _ _

theorem reservedIncPc (c : Cond) (f : FlagUpdate) :
    Statement (.reservedIncPc c f) := encodeR4_top _ _ _ _

theorem inc (c : Cond) (f : FlagUpdate) (x : Reg) :
    Statement (.inc c f x) := encodeR4_top _ _ _ _

theorem dec (c : Cond) (f : FlagUpdate) (x : Reg) :
    Statement (.dec c f x) := encodeR4_top _ _ _ _

theorem notReg (c : Cond) (f : FlagUpdate) (x : Reg) :
    Statement (.notReg c f x) := encodeR4_top _ _ _ _

theorem negReg (c : Cond) (f : FlagUpdate) (x : Reg) :
    Statement (.negReg c f x) := encodeR4_top _ _ _ _

end HeaderBits

end Sys2Proof.Laws
end

