-- ==== Sys2Proof/Tests/Slice0.lean ====
section
/-! SUPPORT. Tests of the model on words and values of the spec (the examples of its rules and 95_test_vectors), and for each
statement with hypotheses a named witness that meets them. -/

namespace Sys2Proof.Machine.Tests

/-! ### Helpers -/

/-- The reset state with two registers of the normal set written. -/
def two (i : Reg) (a : Word) (j : Reg) (b : Word) : State := (State.reset.writeReg i a).writeReg j b

/-- The reset state with one register of the normal set written. -/
def one (i : Reg) (a : Word) : State := State.reset.writeReg i a

/-- The state under other launch parameters. -/
def under (cfg : Config) (s : State) : State := { s with cfg := cfg }

/-- The state in the interrupt context. -/
def inInterrupt (s : State) : State := { s with K := .interrupt }

/-- The state with the levels of the next step's inputs. -/
def lines (irq reset : Bool) (s : State) : State := { s with inputs := [⟨irq, reset⟩] }

/-- The word runs and the state it leaves passes the check. -/
def runs (w : Word) (s : State) (p : State → Bool) : Bool :=
  match exec (decodeWord w) s with
  | .next t => p t
  | .fault _ => false
  | .refused _ => false

/-- The word is refused with this name. -/
def refuses (w : Word) (s : State) (r : Refusal) : Bool :=
  match exec (decodeWord w) s with
  | .next _ => false
  | .fault _ => false
  | .refused q => decide (q = r)

/-- One step has a successor and it passes the check. -/
def steps (s : State) (p : State → Bool) : Bool :=
  match step s with
  | .next t => p t
  | .fault _ => false
  | .refused _ => false

/-- The register i of the active set holds v and R14 reads g. -/
def gives (i : Reg) (v g : Word) (t : State) : Bool := decide (t.x i = v) && decide (t.x 14 = g)

/-- A state with a device at address 0x0100, which R3 holds. -/
def device : State := under { Config.defaults with ioRegion := [0x0100#16] } (one 3 0x0100#16)

/-- A state with DIV_ZERO = refuse, every register 0. -/
def refusing : State := under { Config.defaults with divZero := .refuse } State.reset

/-- A state in which the interrupt input is enabled. -/
def enabled : State := one 14 0x4000#16

/-- A state whose input lines stay as given for ever. -/
def holding (irq reset : Bool) (s : State) : State := { s with held := ⟨irq, reset⟩ }

/-- The stuck loop placed at address 0. -/
def stuck (s : State) : State := s.withFetchWord 16 0x0FDF

/-! ### Well-formedness and decoding -/

/-- R98: `add Rx, 1` with x = 15 is no term of row 27. -/
theorem test_ill_formed_inc : (Instr.inc .al .nf 15).wellFormed = false ∧ (Instr.inc .al .nf 14).wellFormed = true := by decide

/-- Rows of 4-bit codes: examples of R160 to R174 and section 2.12. -/
theorem test_decode_rows_1_to_8 :
    decodeWord 0x0025#16 = .movReg .al .nf 5 2 ∧ decodeWord 0x7123#16 = .load .cs .fl 3 2 ∧
    decodeWord 0x0274#16 = .store .al .nf 4 7 ∧ decodeWord 0x034E#16 = .movXBit .al .nf 14 4 ∧
    decodeWord 0xE4AB#16 = .reservedOp4 .no .nf 0xAB#8 ∧ decodeWord 0x0573#16 = .movBitX .al .nf 3 7 ∧
    decodeWord 0xB6C9#16 = .clearBit .xs .fl 9 12 ∧ decodeWord 0x07FE#16 = .setBit .al .nf 14 15 ∧
    decodeWord 0xC8A7#16 = .notBit .xc .nf 7 10 := by decide

/-- Byte immediates: examples of R190, R191, R192. -/
theorem test_decode_rows_9_to_11 :
    decodeWord 0x0934#16 = .movLow .al .nf 0x34#8 ∧ decodeWord 0x5A80#16 = .movHigh .ne .fl 0x80#8 ∧
    decodeWord 0x4BFD#16 = .addPc .ne .nf 0xFD#8 := by decide

/-- 6-bit codes: examples of R200 to R216 and section 2.12. -/
theorem test_decode_rows_12_to_19 :
    decodeWord 0x1C11#16 = .addReg .al .fl 1 2 ∧ decodeWord 0xFC5A#16 = .subReg .no .fl 2 3 ∧
    decodeWord 0x0C91#16 = .andReg .al .nf 1 2 ∧ decodeWord 0x0CD1#16 = .orReg .al .nf 1 2 ∧
    decodeWord 0x0D11#16 = .xorReg .al .nf 1 2 ∧ decodeWord 0x1D51#16 = .shlReg .al .fl 1 2 ∧
    decodeWord 0x3D9E#16 = .shrReg .eq .fl 6 3 ∧ decodeWord 0x1DD1#16 = .sarReg .al .fl 1 2 := by decide

theorem test_decode_rows_20_to_26 :
    decodeWord 0x9E3A#16 = .mulReg .cc .fl 2 7 ∧ decodeWord 0x0E51#16 = .divReg .al .nf 1 2 ∧
    decodeWord 0x0E91#16 = .imulReg .al .nf 1 2 ∧ decodeWord 0x0EFF#16 = .idivReg .al .nf 7 7 ∧
    decodeWord 0x8F19#16 = .shlImm .cc .nf 1 3 ∧ decodeWord 0x0F7B#16 = .shrImm .al .nf 3 7 ∧
    decodeWord 0x1F82#16 = .sarImm .al .fl 2 0 := by decide

/-- 8-bit codes: section 2.12. -/
theorem test_decode_rows_27_to_30 :
    decodeWord 0x1FCE#16 = .inc .al .fl 14 ∧ decodeWord 0x0FCF#16 = .reservedIncPc .al .nf ∧
    decodeWord 0x0FDF#16 = .dec .al .nf 15 ∧ decodeWord 0x0FE4#16 = .notReg .al .nf 4 ∧
    decodeWord 0xFFFF#16 = .negReg .no .fl 15 := by decide

/-- The list of words is read one word at a time, and an empty one is refused by name. -/
theorem test_decode_list :
    decode [0x0000#16, 0x0FC1#16] = .ok (.movReg .al .nf 0 0, [0x0FC1#16]) ∧ decode [] = .error .noWord := ⟨rfl, rfl⟩

theorem test_decodeTableWord : decodeTableWord 16 0x1C11 = some (.addReg .al .fl 1 2) ∧ decodeTableWord 17 0 = none := by decide

/-! ### Instructions: the examples of their rules -/

theorem test_movReg : runs 0x0025#16 (one 2 0x1234#16) (gives 5 0x1234#16 0#16) = true := by decide
/-- R135: the written flags are overwritten by the update. -/
theorem test_fl_into_r14 : runs 0x101E#16 (one 1 0x0F0F#16) (fun t => decide (t.x 14 = 0x0F84#16)) = true := by decide
theorem test_load : runs 0x1131#16 ((one 3 0x0100#16).storeWord 0x0100#16 0xBEEF#16) (gives 1 0xBEEF#16 0x0050#16) = true := by
  decide
theorem test_store : runs 0x0274#16 (two 4 0x0200#16 7 0x00FF#16)
    (fun t => decide (t.dataMem = [(0x0200, 0x00FF#16)]) && decide (t.x 4 = 0x0200#16)) = true := by decide
theorem test_movXBit : runs 0x034E#16 (one 14 0x0010#16) (fun t => decide (t.x 14 = 0x0014#16)) = true := by decide
theorem test_movBitX : runs 0x0573#16 (one 14 0x0004#16) (gives 3 0x0080#16 0x0004#16) = true := by decide
theorem test_clearBit : runs 0x0603#16 (one 3 0xFFFF#16) (gives 3 0xFFFE#16 0#16) = true := by decide
theorem test_setBit : runs 0x072E#16 State.reset (fun t => decide (t.x 14 = 0x0004#16)) = true := by decide
theorem test_notBit : runs 0x08F5#16 (one 5 0x0001#16) (gives 5 0x8001#16 0#16) = true := by decide
theorem test_movLow : runs 0x0934#16 (one 0 0xABCD#16) (gives 0 0xAB34#16 0#16) = true := by decide
theorem test_movHigh : runs 0x0A12#16 (one 0 0xAB34#16) (gives 0 0x1234#16 0#16) = true := by decide
/-- R192: at address 0x0010, so with R15 = 0x0011. -/
theorem test_addPc : runs 0x0BFD#16 (one 15 0x0011#16) (gives 15 0x000E#16 0#16) = true := by decide
theorem test_addReg : runs 0x1C11#16 (two 1 0x7FFF#16 2 1#16) (gives 1 0x8000#16 0x0098#16) = true := by decide
theorem test_addReg_wraps : runs 0x1C11#16 (two 1 0xFFFF#16 2 1#16) (gives 1 0#16 0x0003#16) = true := by decide
theorem test_subReg : runs 0x1C51#16 (two 1 3#16 2 5#16) (gives 1 0xFFFE#16 0x0071#16) = true := by decide
/-- R133: under SUB_C = not_borrow C says a >= b, so 3 - 5 leaves C and A 0. -/
theorem test_subReg_notBorrow : runs 0x1C51#16 (under { Config.defaults with subC := .notBorrow } (two 1 3#16 2 5#16))
    (gives 1 0xFFFE#16 0x0050#16) = true := by decide
/-- R248: the compare `no fl sub R2, R3` keeps R2. -/
theorem test_compare : runs 0xFC5A#16 (two 2 3#16 3 5#16) (gives 2 3#16 0x0071#16) = true := by decide
theorem test_andReg : runs 0x0C91#16 (two 1 0xF0F0#16 2 0x3C3C#16) (gives 1 0x3030#16 0#16) = true := by decide
theorem test_orReg : runs 0x0CD1#16 (two 1 0xF0F0#16 2 0x3C3C#16) (gives 1 0xFCFC#16 0#16) = true := by decide
theorem test_xorReg : runs 0x0D11#16 (two 1 0xF0F0#16 2 0x3C3C#16) (gives 1 0xCCCC#16 0#16) = true := by decide
theorem test_shlReg : runs 0x1D51#16 (two 1 0x8001#16 2 1#16) (gives 1 0x0002#16 0x00A1#16) = true := by decide
/-- R211: count 16 gives 0 with C the old bit 0; under SHIFT_AMOUNT = mod16 the count is 0. -/
theorem test_shlReg_16 :
    runs 0x1D51#16 (two 1 0x8001#16 2 16#16) (gives 1 0#16 0x0003#16) = true ∧
    runs 0x1D51#16 (under { Config.defaults with shiftAmount := .mod16 } (two 1 0x8001#16 2 16#16))
      (gives 1 0x8001#16 0x0050#16) = true := by decide
theorem test_shrReg : runs 0x1D91#16 (two 1 0x8001#16 2 1#16) (gives 1 0x4000#16 0x00A1#16) = true := by decide
theorem test_sarReg : runs 0x1DD1#16 (two 1 0x8001#16 2 1#16) (gives 1 0xC000#16 0x0071#16) = true := by decide
theorem test_shlImm : runs 0x1F19#16 (one 1 0x1234#16) (gives 1 0x2340#16 0x00A1#16) = true := by decide
theorem test_shrImm : runs 0x0F7B#16 (one 3 0xABCD#16) (gives 3 0x00AB#16 0#16) = true := by decide
theorem test_sarImm : runs 0x1F82#16 (one 2 0x8003#16) (gives 2 0xC001#16 0x0071#16) = true := by decide
theorem test_mulReg : runs 0x0E11#16 (two 1 0x0123#16 2 0x0100#16) (gives 1 0x2300#16 0#16) = true := by decide
theorem test_imulReg : runs 0x0E91#16 (two 1 0xFFFE#16 2 3#16) (gives 1 0xFFFA#16 0#16) = true := by decide
theorem test_divReg : runs 0x0E51#16 (two 1 0x0064#16 2 7#16) (gives 1 0x000E#16 0#16) = true := by decide
theorem test_idivReg : runs 0x0ED1#16 (two 1 0xFFF9#16 2 2#16) (gives 1 0xFFFD#16 0#16) = true := by decide
/-- R223: -32768 / -1 is 0x8000. -/
theorem test_idivReg_overflow : runs 0x0ED1#16 (two 1 0x8000#16 2 0xFFFF#16) (gives 1 0x8000#16 0#16) = true := by decide
/-- R224: a zero divisor under DIV_ZERO = refuse. -/
theorem test_divReg_refused : refuses 0x0E51#16 refusing .divisionRefused = true := by decide
/-- R224: under DIV_ZERO = draw the instruction completes, its value free. -/
theorem test_divReg_draws : runs 0x1E51#16 State.reset (fun t => decide (t.draws = 1)) = true := by decide
theorem test_inc : runs 0x0FC3#16 (one 3 0x00FF#16) (gives 3 0x0100#16 0#16) = true := by decide
theorem test_dec : runs 0x1FD2#16 (one 2 1#16) (gives 2 0#16 0x0002#16) = true := by decide
theorem test_notReg : runs 0x0FE4#16 (one 4 0x00FF#16) (gives 4 0xFF00#16 0#16) = true := by decide
/-- R232: `not R14` always switches context. -/
theorem test_notReg_r14 : runs 0x0FEE#16 State.reset (fun t => decide (t.K = .interrupt)) = true := by decide
theorem test_negReg : runs 0x0FF1#16 (one 1 5#16) (gives 1 0xFFFB#16 0#16) = true := by decide
theorem test_negReg_byteSwap : runs 0x0FF1#16 (under { Config.defaults with negMode := .byteSwap } (one 1 5#16))
    (gives 1 0x0500#16 0#16) = true := by decide
/-- R97, R98: refused, `no nf` included, and passed over when the condition is false (section 2.12). -/
theorem test_reserved :
    refuses 0xE4AB#16 State.reset .reservedOpcode0100 = true ∧ refuses 0x0FCF#16 State.reset .reservedIncrementOfR15 = true ∧
    runs 0x2400#16 State.reset (fun t => decide (t = State.reset)) = true := by decide
/-- R123: `eq` with Z = 0 does nothing, the flag update included. -/
theorem test_failed_condition : runs 0x3C11#16 (two 1 1#16 2 1#16) (fun t => decide (t = two 1 1#16 2 1#16)) = true := by decide
/-- R100: `no nf sub R2, R3`. -/
theorem test_nop : runs 0xEC5A#16 (two 2 3#16 3 5#16) (fun t => decide (t = two 2 3#16 3 5#16)) = true := by decide
/-- R130: a move with `fl` clears C and V, or keeps them under FLAG_OTHERWISE = keep. -/
theorem test_flag_otherwise :
    runs 0x1025#16 (two 2 1#16 14 0x0009#16) (gives 5 1#16 0x0080#16) = true ∧
    runs 0x1025#16 (under { Config.defaults with flagOtherwise := .keep } (two 2 1#16 14 0x0009#16))
      (gives 5 1#16 0x0069#16) = true := by decide
/-- R134: R14 reads 0x0080 after reset where A, L and G are live. -/
theorem test_live_reset : (under { Config.defaults with algMode := .live } State.reset).x 14 = 0x0080#16 := by decide

/-! ### The step, contexts, reset, halt -/

/-- Section 2.13: the first step after reset with 0x0FC1 at address 0. -/
theorem test_first_step : steps (State.reset.withFetchWord 16 0x0FC1)
    (fun t => decide (t.x 1 = 1#16) && decide (t.x 15 = 1#16)) = true := by decide
/-- R265: the signal enters, with the cause bit 1, and the interrupt set's first fetch is at 0. -/
theorem test_interrupt_entry : steps ((lines true false enabled).withFetchWord 16 0x0FC1)
    (fun t => decide (t.K = .interrupt) && decide (t.x 14 = 0xC000#16) && decide (t.x 1 = 1#16) && decide (t.normal.pc = 0#16)) =
      true := by decide
/-- R264: a signal that stays 1 is taken again at the step after the return `mov R14:15, 0`. -/
theorem test_interrupt_again : steps (holding true false (inInterrupt enabled) |>.withFetchWord 16 0x06FE)
    (fun t => decide (t.K = .normal) && t.takesInterrupt t.lines.irq && decide (t.nextFetchAddress = 1#16)) = true := by decide
/-- R267, R269: entry by program with cause 0, and the return. -/
theorem test_entry_and_return :
    runs 0x07FE#16 (one 15 5#16) (fun t => decide (t.K = .interrupt) && decide (t.normal.pc = 5#16) && decide (t.x 14 = 0x8000#16)) = true ∧
    runs 0x06FE#16 (inInterrupt (one 15 5#16)) (fun t => decide (t = one 15 5#16)) = true := by decide
theorem test_soft_reset : runs 0x07CE#16 (two 1 7#16 15 9#16) (fun t => decide (t = State.reset)) = true := by decide
theorem test_halt : runs 0x07DE#16 State.reset (fun t => t.halted && decide (t.x 14 = 0x2000#16)) = true := by decide
/-- R40: `not R14:13` stores the bit and does not halt. -/
theorem test_not_h : runs 0x08DE#16 State.reset (fun t => !t.halted && decide (t.x 14 = 0x2000#16)) = true := by decide
/-- R300: the reset input ends the halt. -/
theorem test_reset_input : steps (lines true true { one 1 7#16 with halted := true }) (fun t => decide (t = State.reset)) = true := by
  decide
/-- R139: the stuck loop gives the state back. -/
theorem test_stuck_loop : steps (stuck State.reset) (fun t => decide (t = stuck State.reset)) = true := by decide
/-- R244, R246: a generated condition and its two words; R243: `add R15, 1` is the S8 form. -/
theorem test_assembler :
    assembleWords ⟨.hi, .nf, .add, [.reg 1, .reg 2]⟩ = some [0x035E#16, 0xAC11#16] ∧
    assembleWords ⟨.al, .nf, .add, [.reg 15, .num 1]⟩ = some [0x0B01#16] ∧
    assembleWords ⟨.al, .nf, .add, [.reg 8, .reg 1]⟩ = none := by decide

/-! ### Witnesses: each statement's hypotheses hold together somewhere, a state for each clause -/

theorem test_witness_DecodeOfEncode : (Instr.inc .no .fl 14).wellFormed = true := by decide
theorem test_witness_DecoderFollowsTheOpcodeMap :
    OpcodeRow.mk 27 0x0FF0#16 0x0FC0#16 ∈ opcodeMap ∧ (OpcodeRow.mk 27 0x0FF0#16 0x0FC0#16).matchesWord 0x0FCF#16 = true ∧
    reservedIncRow ∈ opcodeMap ∧ reservedIncRow.matchesWord 0x0FCF#16 = true := by decide
theorem test_witness_AssembleOfDisassemble :
    (Instr.addPc .al .nf 0x80#8).wellFormed = true ∧ (Instr.addPc .al .nf 0x80#8).isReserved = false := by decide
theorem test_witness_GeneratedConditionTestsItsFlag :
    assembleOne .xs .nf .add [.reg 1, .reg 2] = some (.addReg .xs .nf 1 2) ∧
    assemble ⟨.ls, .nf, .add, [.reg 1, .reg 2]⟩ = some [copyToX 5, .addReg .xc .nf 1 2] := by decide
theorem test_witness_StepRunsTheFetchedInstruction :
    State.reset.lines.reset = false ∧ State.reset.halted = false ∧
    State.reset.takesInterrupt State.reset.lines.irq = false ∧ State.reset.fetchIsIo (State.reset.regs State.reset.K).pc = false := by
  decide
/-- The clause of a failed condition: `eq nf mov R0, R0` with Z = 0. -/
theorem test_witness_StepRunsTheFetchedInstruction_failed :
    (State.reset.withFetchWord 16 0x2000).lines.reset = false ∧ (State.reset.withFetchWord 16 0x2000).halted = false ∧
    condHolds (decodeWord ((State.reset.withFetchWord 16 0x2000).fetchWord 0#16)).cond
      (State.reset.withFetchWord 16 0x2000).fg = false := by decide
theorem test_witness_StepEntersTheInterruptContext :
    (lines true false enabled).lines = ⟨true, false⟩ ∧ (lines true false enabled).halted = false ∧
    (lines true false enabled).K = .normal ∧ (lines true false enabled).normal.fg.getLsbD 14 = true ∧
    (lines true false enabled).fetchIsIo (lines true false enabled).interrupt.pc = false := by decide
theorem test_witness_MaskedInterruptIsIgnored :
    (lines true false (inInterrupt enabled)).K = .interrupt ∧ (lines true false (inInterrupt enabled)).lines.irq = true ∧
    (lines true false State.reset).normal.fg.getLsbD 14 = false ∧ (lines true false State.reset).lines.irq = true := by decide
theorem test_witness_HeldSignalStarvesTheNormalContext :
    SignalHeldHigh (holding true false enabled) ∧ (holding true false enabled).halted = false ∧
    (holding true false enabled).fetchIsIo (holding true false enabled).interrupt.pc = false := ⟨⟨rfl, rfl, by decide⟩, rfl, by decide⟩
/-- The second clause, from the interrupt context with the word 0x0FC1 placed: no soft reset; and from a halted processor. -/
theorem test_witness_HeldSignalStarvesTheNormalContext_steps :
    (∃ s : State, s = (holding true false (inInterrupt enabled)).withFetchWord 16 0x0FC1 ∧ SignalHeldHigh s ∧ (∃ t, step s = .next t) ∧
      asksSoftReset (decodeWord (s.fetchWord s.interrupt.pc)) (s.sampleInterrupt true) = false) ∧
    (∃ s : State, s = { holding true false enabled with halted := true } ∧ SignalHeldHigh s ∧ (∃ t, step s = .next t) ∧
      s.halted = true) :=
  ⟨⟨_, rfl, ⟨rfl, rfl, by decide⟩, ⟨_, rfl⟩, by decide⟩, ⟨_, rfl, ⟨rfl, rfl, by decide⟩, ⟨_, rfl⟩, rfl⟩⟩
theorem test_witness_HaltedProcessorDoesNothing :
    ({ State.reset with halted := true } : State).lines.reset = false ∧ ({ State.reset with halted := true } : State).halted = true := by
  decide
theorem test_witness_ResetInputWins : (lines true true { State.reset with halted := true }).lines.reset = true := by decide
theorem test_witness_FetchFromADeviceIsRefused :
    ∃ s : State, s.lines.reset = false ∧ s.halted = false ∧ s.cfg.addressSpace = .unified ∧ s.isIo s.nextFetchAddress = true :=
  ⟨under { Config.defaults with ioRegion := [0#16] } State.reset, by decide⟩
theorem test_witness_StepRefusesOnlyWhereTheSpecDoes :
    (∃ r, step (under { Config.defaults with ioRegion := [0#16] } State.reset) = .refused r) ∧
    (∃ r, step (State.reset.withFetchWord 16 0x0400) = .refused r) ∧
    (∃ r, step (State.reset.withFetchWord 16 0x0FCF) = .refused r) ∧
    (∃ r, step (refusing.withFetchWord 16 0x0E51) = .refused r) := ⟨⟨_, rfl⟩, ⟨_, rfl⟩, ⟨_, rfl⟩, ⟨_, rfl⟩⟩
theorem test_witness_StuckLoop :
    (stuck State.reset).lines.reset = false ∧ (stuck State.reset).halted = false ∧
    (stuck State.reset).fetchIsIo ((stuck State.reset).regs (stuck State.reset).K).pc = false ∧
    (stuck State.reset).fetchWord ((stuck State.reset).regs (stuck State.reset).K).pc = 0x0FDF#16 ∧
    (stuck State.reset).takesInterrupt (stuck State.reset).lines.irq = false := by decide
/-- The two other clauses: in the interrupt context, and in the normal context with the interrupt taken. -/
theorem test_witness_StuckLoop_contexts :
    (∃ s : State, s = stuck (inInterrupt (lines true false enabled)) ∧ s.lines.reset = false ∧ s.halted = false ∧
      s.fetchIsIo (s.regs s.K).pc = false ∧ s.fetchWord (s.regs s.K).pc = 0x0FDF#16 ∧ s.K = .interrupt) ∧
    (∃ s : State, s = stuck (lines true false enabled) ∧ s.lines.reset = false ∧ s.halted = false ∧
      s.fetchIsIo (s.regs s.K).pc = false ∧ s.fetchWord (s.regs s.K).pc = 0x0FDF#16 ∧ s.takesInterrupt s.lines.irq = true) :=
  ⟨⟨_, rfl, by decide⟩, ⟨_, rfl, by decide⟩⟩
theorem test_witness_StepKeepsMemoryCanonical :
    (stuck State.reset).dataMem.wf = true ∧ (stuck State.reset).progMem.wf = true ∧ ∃ t, step (stuck State.reset) = .next t :=
  ⟨by decide, by decide, _, rfl⟩
theorem test_witness_CanonicalMemoriesAreExtensional :
    Memory.wf [(0, 1#16), (65535, 2#16)] = true ∧ Memory.wf [(65536, 1#16)] = false ∧ Memory.wf [(1, 1#16), (1, 1#16)] = false := by
  decide
theorem test_witness_SplitProgramIsNeverWritten :
    ∃ s t : State, s.cfg.addressSpace = .split ∧ step s = .next t :=
  ⟨(under { Config.defaults with addressSpace := .split } State.reset).withFetchWord 16 0x0274, _, rfl, rfl⟩
theorem test_witness_InactiveSetIsUntouched :
    (∃ t, exec (.setBit .al .nf 14 15) State.reset = .next t) ∧ asksSoftReset (.setBit .al .nf 14 15) State.reset = false :=
  ⟨⟨_, rfl⟩, rfl⟩
theorem test_witness_InactiveSetIsNotRead :
    Context.interrupt ≠ State.reset.K ∧ ∃ t, exec (.setBit .al .nf 14 15) State.reset = .next t := ⟨by decide, _, rfl⟩
theorem test_witness_HaltOnlyByTheReactingMoves :
    State.reset.halted = false ∧ (∃ t, exec (.setBit .al .nf 14 13) State.reset = .next t) ∧
    asksHalt (.setBit .al .nf 14 13) State.reset = true ∧ asksHalt (.notBit .al .nf 14 13) State.reset = false :=
  ⟨rfl, ⟨_, rfl⟩, rfl, rfl⟩
theorem test_witness_OnlyLoadsAndStoresReachMemory :
    (∃ t, exec (.addReg .al .fl 0 0) State.reset = .next t) ∧ isStore (.addReg .al .fl 0 0) = false ∧
    isLoad (.addReg .al .fl 0 0) = false := ⟨⟨_, rfl⟩, rfl, rfl⟩
theorem test_witness_EveryDefinedInstructionCompletes :
    (Instr.divReg .al .nf 0 0).wellFormed = true ∧ (Instr.divReg .al .nf 0 0).isReserved = false ∧
    State.reset.cfg.divZero = .draw ∧ isOpenDivision (.divReg .al .nf 1 2) (under refusing.cfg (one 2 1#16)) = false := by decide
theorem test_witness_FailedConditionChangesNothing : condHolds (Instr.reservedIncPc .eq .nf).cond State.reset.fg = false := by decide
theorem test_witness_NoConditionWritesNoDestination :
    (Instr.store .no .fl 1 2).cond = .no ∧ (∃ t, exec (.store .no .fl 1 2) State.reset = .next t) ∧
    drawsAValue (.store .no .fl 1 2) State.reset = false ∧ drawsAValue (.load .no .fl 1 3) device = true ∧
    ∃ t, exec (.load .no .fl 1 3) device = .next t := ⟨rfl, ⟨_, rfl⟩, by decide, by decide, _, rfl⟩
theorem test_witness_NoOperationWords :
    0xEC5A#16 &&& 0xF000#16 = 0xE000#16 ∧ (decodeWord 0xEC5A#16).isReserved = false ∧
    isOpenDivision (decodeWord 0xEC5A#16) State.reset = false ∧ drawsAValue (decodeWord 0xEC5A#16) State.reset = false ∧
    0xEE51#16 &&& 0xF000#16 = 0xE000#16 ∧ (decodeWord 0xEE51#16).isReserved = false ∧ State.reset.cfg.divZero = .draw ∧
    isLoad (decodeWord 0xEE51#16) = false ∧ drawsAValue (decodeWord 0xEE51#16) State.reset = true ∧
    0xE4AB#16 &&& 0xF000#16 = 0xE000#16 ∧ (decodeWord 0xE4AB#16).isReserved = true := by decide
theorem test_witness_ReadsOfTheFlagRegister : ({ Config.defaults with algMode := .live } : Config).algMode = .live := by decide

/-- The hypothesis that the condition holds, which the result statements share: every condition holds somewhere. -/
theorem test_witness_condition_holds :
    condHolds .al State.reset.fg = true ∧ condHolds .no State.reset.fg = true ∧ condHolds .ne State.reset.fg = true ∧
    condHolds .cc State.reset.fg = true ∧ condHolds .xc State.reset.fg = true ∧ condHolds .eq (one 14 2#16).fg = true ∧
    condHolds .cs (one 14 1#16).fg = true ∧ condHolds .xs (one 14 4#16).fg = true := by decide
theorem test_witness_MovRegResult : condHolds .al State.reset.fg = true := by decide
theorem test_witness_LoadResult : condHolds .al device.fg = true ∧ device.isIo (device.x 4) = false := by decide
theorem test_witness_LoadResult_device : condHolds .no device.fg = true ∧ device.isIo (device.x 3) = true := by decide
theorem test_witness_StoreResult : condHolds .al device.fg = true ∧ Cond.al ≠ .no ∧ device.isIo (device.x 4) = false := by decide
theorem test_witness_StoreResult_device : condHolds .al device.fg = true ∧ Cond.al ≠ .no ∧ device.isIo (device.x 3) = true := by decide
/-- R124: `no fl mov [R4], R7` stores nothing and updates the flags. -/
theorem test_witness_StoreResult_no : condHolds .no State.reset.fg = true ∧
    runs 0xF274#16 (one 7 0x8000#16) (fun t => decide (t.dataMem = []) && decide (t.x 14 = 0x0050#16)) = true := by decide
theorem test_witness_MovXBitResult : condHolds .xc State.reset.fg = true := by decide
theorem test_witness_WriteBitResult_movBitX :
    condHolds .al State.reset.fg = true ∧ asksSoftReset (.movBitX .al .nf 14 12) State.reset = false ∧
    asksHalt (.movBitX .al .nf 14 12) State.reset = false := by decide
theorem test_witness_ClearAndNotBitResult : condHolds .al State.reset.fg = true := by decide
theorem test_witness_WriteBitResult_setBit :
    condHolds .no State.reset.fg = true ∧ asksSoftReset (.setBit .no .nf 14 12) State.reset = false ∧
    asksHalt (.setBit .no .nf 14 12) State.reset = false ∧
    asksSoftReset (.setBit .al .nf 14 15) State.reset = false ∧ asksHalt (.setBit .al .nf 14 15) State.reset = false := by decide
theorem test_witness_SoftReset :
    asksSoftReset (.setBit .al .fl 14 12) State.reset = true ∧
    asksSoftReset (.movBitX .xs .nf 14 12) (inInterrupt { State.reset with interrupt := { RegSet.zero with fg := 4#15 } }) = true := by
  decide
theorem test_witness_Halt :
    asksHalt (.setBit .al .fl 14 13) State.reset = true ∧ asksHalt (.movBitX .xs .nf 14 13) (one 14 4#16) = true := by decide
/-- Forms that write a 1 to bit 15 of R14: a move, `add R14, 1` from 0x7FFF, `not R14:15`, `mov R14:15, X` and `not R14`. -/
theorem test_witness_EntryByProgram :
    (one 1 0x8000#16).K = .normal ∧ (writesR14 (.movReg .al .fl 14 1) (one 1 0x8000#16)).map (·.res) = some 0x8000#16 ∧
    (writesR14 (.inc .al .fl 14) (one 14 0x7FFF#16)).map (·.res) = some 0x8000#16 ∧
    (writesR14 (.notBit .al .nf 14 15) State.reset).map (·.res) = some 0x8000#16 ∧
    (writesR14 (.movBitX .xs .nf 14 15) (one 14 4#16)).map (·.res) = some 0x8004#16 ∧
    (writesR14 (.notReg .al .nf 14) State.reset).map (·.res) = some 0xFFFF#16 := by decide
theorem test_witness_EntryByProgram_enters :
    (∃ t, exec (.inc .al .fl 14) (one 14 0x7FFF#16) = .next t ∧ t.K = .interrupt) ∧
    condHolds .al State.reset.fg = true ∧ Cond.al ≠ .no := ⟨⟨_, rfl, by decide⟩, rfl, by decide⟩
/-- Forms that write a 0 to bit 15 of R14: a move, a load, `mov R14:15, X` with X = 0, `sub R14, 1` from 0x8000 and `not R14`. -/
theorem test_witness_ReturnFromInterrupt :
    (inInterrupt State.reset).K = .interrupt ∧
    (writesR14 (.movReg .al .nf 14 1) (inInterrupt State.reset)).map (·.res) = some 0#16 ∧
    (writesR14 (.load .al .nf 14 1) ((inInterrupt State.reset).storeWord 0#16 7#16)).map (·.res) = some 7#16 ∧
    (writesR14 (.movBitX .al .nf 14 15) (inInterrupt State.reset)).map (·.res) = some 0#16 ∧
    (writesR14 (.dec .al .nf 14) (inInterrupt State.reset)).map (·.res) = some 0x7FFF#16 ∧
    (writesR14 (.notReg .al .nf 14) (inInterrupt State.reset)).map (·.res) = some 0x7FFF#16 := by decide
theorem test_witness_ReturnFromInterrupt_returns :
    (∃ t, exec (.clearBit .al .nf 14 15) (inInterrupt State.reset) = .next t ∧ t.K = .normal) ∧
    asksSoftReset (.clearBit .al .nf 14 15) (inInterrupt State.reset) = false ∧
    condHolds .al (inInterrupt State.reset).fg = true ∧ Cond.al ≠ .no := ⟨⟨_, rfl, rfl⟩, rfl, rfl, by decide⟩
theorem test_witness_RewritingKDoesNothing : (inInterrupt State.reset).K = .interrupt ∧ State.reset.K = .normal := by decide
theorem test_witness_MovByteResult : condHolds .al State.reset.fg = true := by decide
theorem test_witness_AddPcResult : condHolds .ne State.reset.fg = true := by decide
theorem test_witness_AddRegResult : condHolds .cc State.reset.fg = true := by decide
theorem test_witness_SubRegResult : condHolds .no State.reset.fg = true := by decide
theorem test_witness_LogicResult : condHolds .al State.reset.fg = true := by decide
theorem test_witness_FlagsAfterACompare : condHolds .no State.reset.fg = true := by decide
/-- Counts 0, 16 and 17 under `full`, and 1 for 17 under `mod16`. -/
theorem test_witness_ShiftByRegisterResult :
    condHolds .al State.reset.fg = true ∧ regCount Config.defaults ((one 2 0#16).x 2) = 0 ∧
    regCount Config.defaults ((one 2 16#16).x 2) = 16 ∧ regCount Config.defaults ((one 2 17#16).x 2) = 17 ∧
    regCount { Config.defaults with shiftAmount := .mod16 } ((one 2 17#16).x 2) = 1 := by decide
theorem test_witness_ShiftByImmediateResult : condHolds .al State.reset.fg = true := by decide
theorem test_witness_MultiplyResult : condHolds .al State.reset.fg = true := by decide
theorem test_witness_DivideResult :
    condHolds .al (two 1 0x8000#16 2 0xFFFF#16).fg = true ∧
    isOpenDivision (.divReg .al .nf 1 2) (two 1 0x8000#16 2 0xFFFF#16) = false ∧
    isOpenDivision (.idivReg .al .nf 1 2) (two 1 0x8000#16 2 0xFFFF#16) = false := by decide
theorem test_witness_OpenDivision :
    condHolds .al State.reset.fg = true ∧ State.reset.cfg.divZero = .draw ∧
    isOpenDivision (.divReg .al .fl 1 2) State.reset = true ∧ isOpenDivision (.idivReg .al .fl 1 2) State.reset = true ∧
    isOpenDivision (.idivReg .al .fl 1 2)
      (under { Config.defaults with idivOverflow := .asDivZero } (two 1 0x8000#16 2 0xFFFF#16)) = true := by decide
theorem test_witness_OpenDivision_refused :
    condHolds (Instr.divReg .al .fl 1 2).cond refusing.fg = true ∧ refusing.cfg.divZero = .refuse ∧
    isOpenDivision (.divReg .al .fl 1 2) refusing = true ∧ isOpenDivision (.idivReg .al .fl 1 2) refusing = true := by decide
theorem test_witness_IncrementAndDecrement :
    condHolds .al State.reset.fg = true ∧ (15 : Reg).val = 15 ∧ (14 : Reg).val ≠ 15 := by decide
theorem test_witness_NotRegResult : condHolds .al State.reset.fg = true ∧ (14 : Reg).val = 14 ∧ Cond.al ≠ .no := by decide
theorem test_witness_NegRegResult : condHolds .al State.reset.fg = true := by decide
theorem test_witness_ReservedWordsStop :
    condHolds .no State.reset.fg = true ∧ condHolds .eq State.reset.fg = false := by decide

end Sys2Proof.Machine.Tests
end

namespace Sys2Proof.Machine

/-! ### Frame of the parts of an instruction

What the write-back, the reaction, and the read or draw before them leave as it was. -/

@[simp] theorem writeBack_K (s : State) (d) : (s.writeBack d).K = s.K := by
  cases d <;> simp [State.writeBack]
@[simp] theorem writeBack_cfg (s : State) (d) : (s.writeBack d).cfg = s.cfg := by
  cases d <;> simp [State.writeBack]
@[simp] theorem writeBack_halted (s : State) (d) : (s.writeBack d).halted = s.halted := by
  cases d <;> simp [State.writeBack]
@[simp] theorem writeBack_progMem (s : State) (d) : (s.writeBack d).progMem = s.progMem := by
  cases d <;> simp [State.writeBack]
theorem writeBack_regs_of_ne (s : State) {k : Context} (d) (h : k ≠ s.K) : (s.writeBack d).regs k = s.regs k := by
  cases d with
  | reg d v => exact writeReg_regs_of_ne s d v h
  | flagX b => exact writeX_regs_of_ne s b h
  | mem a v => exact storeWord_regs s a v k

theorem react_K_of_ne_softReset (s : State) {r : Reaction} (h : r ≠ .softReset) : (s.react r).K = s.K := by
  cases r with
  | softReset => exact absurd rfl h
  | _ => rfl
theorem react_regs_of_ne_softReset (s : State) {r : Reaction} (h : r ≠ .softReset) (k : Context) :
    (s.react r).regs k = s.regs k := by
  cases r with
  | softReset => exact absurd rfl h
  | _ => cases k <;> rfl
/-- Only a halt can leave a running processor halted (60_exceptions R276). -/
theorem react_halted_of_ne_halt (s : State) {r : Reaction} (hs : s.halted = false) (h : r ≠ .halt) :
    (s.react r).halted = false := by
  cases r with
  | none => exact hs
  | softReset => rfl
  | halt => exact absurd rfl h

theorem Prepared.K {s u : State} (h : Prepared s u) : u.K = s.K := by cases h <;> simp
theorem Prepared.cfg {s u : State} (h : Prepared s u) : u.cfg = s.cfg := by cases h <;> simp
theorem Prepared.halted {s u : State} (h : Prepared s u) : u.halted = s.halted := by cases h <;> simp
theorem Prepared.progMem {s u : State} (h : Prepared s u) : u.progMem = s.progMem := by cases h <;> simp
theorem Prepared.regs {s u : State} (h : Prepared s u) (k : Context) : u.regs k = s.regs k := by
  cases h with
  | same => rfl
  | loaded a => exact afterLoad_regs s a k
  | drew => cases k <;> rfl

/-! ### The set that is not active is not written -/

/-- A context switch over a state that kept the other set, and K, keeps it but for the cause bit (60_exceptions R267). -/
theorem otherSetKept_switchIf {s u : State} (o : Option Context) (hK : u.K = s.K)
    (hregs : ∀ k, k ≠ s.K → u.regs k = s.regs k) : OtherSetKept s (u.switchIf o) := by
  constructor
  · intro k hk; rw [switchIf_gpr, hregs k hk]
  · intro k hk; rw [switchIf_pc, hregs k hk]
  · intro k hk n _
    have entered : k = .interrupt → (o = some .interrupt ↔ (u.switchIf o).K = .interrupt) := by
      rintro rfl
      cases o with
      | none => exact ⟨nofun, fun h => absurd (h.symm.trans hK) hk⟩
      | some k' => simp [State.switchIf]
    simp only [switchIf_fg, hregs k hk, and_congr_right_iff.mpr entered]

/-- A state that kept K and the other set, without a switch. -/
theorem otherSetKept_of_regs {s t : State} (hK : t.K = s.K) (hregs : ∀ k, k ≠ s.K → t.regs k = s.regs k) :
    OtherSetKept s t :=
  otherSetKept_switchIf none hK hregs

/-- Settles O24: of lines 7 to 9, the write-back and the flag update write the active set alone, and the switch writes the
cause bit alone. -/
theorem inactiveSetIsUntouched : Obligations.InactiveSetIsUntouched := by
  intro i s t h hsoft
  rcases exec_cases h with rfl | ⟨u, d, fl, r, hf⟩
  · exact otherSetKept_of_regs rfl fun _ _ => rfl
  · have hK := hf.prepared.K
    rcases finish_cases hf.result with ⟨-, rfl⟩ | ⟨hc, rfl⟩
    · refine otherSetKept_of_regs (by simpa using hK) fun k hk => ?_
      rw [flagLine_regs_of_ne _ _ _ (hK ▸ hk), hf.prepared.regs]
    · have hr : r ≠ .softReset := fun hr => by
        rcases hf.soft hr with h | h
        · exact hc h
        · simp [hsoft] at h
      refine otherSetKept_switchIf _ (by simpa [react_K_of_ne_softReset _ hr] using hK) fun k hk => ?_
      rw [react_regs_of_ne_softReset _ hr, flagLine_regs_of_ne _ _ _ (hK ▸ hk), writeBack_regs_of_ne _ _ (hK ▸ hk),
        hf.prepared.regs]

/-! ### The set that is not active is not read -/

section InactiveSetReplaced

theorem setRegs_comm (s : State) {k k' : Context} (r r' : RegSet) (h : k ≠ k') :
    (s.setRegs k r).setRegs k' r' = (s.setRegs k' r').setRegs k r :=
  match k, k', h with
  | .normal, .interrupt, _ | .interrupt, .normal, _ => rfl
  | .normal, .normal, h | .interrupt, .interrupt, h => absurd rfl h

@[simp] theorem setRegs_isIo (s : State) (k r a) : (s.setRegs k r).isIo a = s.isIo a := by cases k <;> rfl
@[simp] theorem setRegs_loadValue (s : State) (k r a) : (s.setRegs k r).loadValue a = s.loadValue a := by
  cases k <;> rfl
theorem setRegs_afterLoad (s : State) (k r a) : (s.setRegs k r).afterLoad a = (s.afterLoad a).setRegs k r := by
  simp only [State.afterLoad, setRegs_isIo]
  split <;> cases k <;> rfl
theorem setRegs_storeWord (s : State) (k r a v) : (s.setRegs k r).storeWord a v = (s.storeWord a v).setRegs k r := by
  simp only [State.storeWord, setRegs_isIo]
  split <;> cases k <;> rfl
@[simp] theorem setRegs_requested (s : State) (k r d) : (s.setRegs k r).requested d = s.requested d := by
  cases d <;> simp [State.requested]

theorem setRegs_flagLine (s : State) {k k0 : Context} (r f fl) (h : k ≠ k0) :
    (s.setRegs k r).flagLine k0 f fl = (s.flagLine k0 f fl).setRegs k r := by
  cases f with
  | nf => rfl
  | fl => simp only [State.flagLine, State.updateFlagsOf, setRegs_regs_of_ne s r h.symm, setRegs_cfg, setRegs_comm s _ _ h]

/-- The reaction, seen from a state with another set in place of R[k]. -/
theorem setRegs_react (s : State) (k r rc) : ∃ r', (s.setRegs k r).react rc = (s.react rc).setRegs k r' := by
  cases rc with
  | softReset => exact ⟨RegSet.zero, by cases k <;> rfl⟩
  | _ => exact ⟨r, by cases k <;> rfl⟩

/-- The context switch, seen from a state with another set in place of R[k]: an entry clears that set's cause bit. -/
theorem setRegs_switchIf (s : State) (k r o) : ∃ r', (s.setRegs k r).switchIf o = (s.switchIf o).setRegs k r' := by
  match o, k with
  | none, _ => exact ⟨r, rfl⟩
  | some .normal, k => exact ⟨r, by cases k <;> rfl⟩
  | some .interrupt, .normal => exact ⟨r, rfl⟩
  | some .interrupt, .interrupt => exact ⟨{ r with fg := putBit r.fg FG.I false }, rfl⟩

/-- Two answers that differ at most in the contents of R[k]: the same refusal, or two such states. -/
inductive SameButSet (k : Context) : Result → Result → Prop where
  | next (t : State) (r : RegSet) : SameButSet k (.next t) (.next (t.setRegs k r))
  | refused (e : Refusal) : SameButSet k (.refused e) (.refused e)

theorem SameButSet.next_left {k : Context} {t : State} {o : Result} (h : SameButSet k (.next t) o) :
    ∃ r, o = .next (t.setRegs k r) := by
  cases h with
  | next _ r => exact ⟨r, rfl⟩

variable {s : State} {k : Context} (hk : k ≠ s.K) (r : RegSet)
include hk

theorem setRegs_fg : (s.setRegs k r).fg = s.fg := by
  rw [State.fg, setRegs_K, setRegs_regs_of_ne s r hk.symm, State.fg]

theorem setRegs_x (i : Reg) : (s.setRegs k r).x i = s.x i := by
  rw [State.x, setRegs_K, setRegs_cfg, setRegs_regs_of_ne s r hk.symm, State.x]

theorem setRegs_flagX : (s.setRegs k r).flagX = s.flagX := by
  rw [State.flagX, setRegs_fg hk, State.flagX]

theorem setRegs_xBit (x : Reg) (b : BitNo) : (s.setRegs k r).xBit x b = s.xBit x b := by
  rw [State.xBit, setRegs_x hk, State.xBit]

theorem setRegs_writeBack (d : Dest) : (s.setRegs k r).writeBack d = (s.writeBack d).setRegs k r := by
  cases d with
  | reg d v =>
    simp only [State.writeBack, State.writeReg, setRegs_K, setRegs_cfg, setRegs_regs_of_ne s r hk.symm,
      setRegs_comm s _ _ hk]
  | flagX b =>
    simp only [State.writeBack, State.writeX, setRegs_K, setRegs_regs_of_ne s r hk.symm, setRegs_comm s _ _ hk]
  | mem a v => exact setRegs_storeWord s k r a v

theorem finish_sameButSet (c f d fl rc) :
    SameButSet k (finish c f d fl rc s) (finish c f d fl rc (s.setRegs k r)) := by
  unfold finish
  rw [setRegs_K, setRegs_requested]
  split
  · rw [setRegs_flagLine s _ _ _ hk]
    exact .next _ _
  · rw [setRegs_writeBack hk, setRegs_flagLine _ _ _ _ hk]
    obtain ⟨r₁, h₁⟩ := setRegs_react ((s.writeBack d).flagLine s.K f fl) k r rc
    obtain ⟨r₂, h₂⟩ := setRegs_switchIf (((s.writeBack d).flagLine s.K f fl).react rc) k r₁ (s.requested d)
    rw [h₁, h₂]
    exact .next _ _

theorem whenHolds_sameButSet (c : Cond) {b b' : Result} (h : SameButSet k b b') :
    SameButSet k (whenHolds c s b) (whenHolds c (s.setRegs k r) b') := by
  unfold whenHolds
  rw [setRegs_fg hk]
  split
  · exact h
  · exact .next _ _

theorem finishReg_sameButSet (c f d v) : SameButSet k (finishReg c f d v s) (finishReg c f d v (s.setRegs k r)) :=
  whenHolds_sameButSet hk r c (finish_sameButSet hk r ..)

theorem finishBit_sameButSet (c f x b v rc) :
    SameButSet k (finishBit c f x b v rc s) (finishBit c f x b v rc (s.setRegs k r)) := by
  unfold finishBit
  rw [setRegs_x hk]
  exact whenHolds_sameButSet hk r c (finish_sameButSet hk r ..)

theorem finishOpenDivision_sameButSet (c f d) :
    SameButSet k (finishOpenDivision c f d s) (finishOpenDivision c f d (s.setRegs k r)) := by
  unfold finishOpenDivision
  rw [setRegs_cfg, setRegs_draws]
  split
  · cases k <;> exact finish_sameButSet (s := { s with draws := s.draws + 1 }) hk r ..
  · exact .refused _

/-- Every instruction answers the same from a state in which the set that is not active holds anything else: it reads that
state through `x`, the flags, the X flag and a load's value alone, none of which is in that set. -/
theorem exec_sameButSet (i : Instr) : SameButSet k (exec i s) (exec i (s.setRegs k r)) := by
  cases i with
  | load c f x y =>
    simp only [exec, execLoad, setRegs_x hk, setRegs_loadValue, setRegs_afterLoad]
    exact whenHolds_sameButSet hk r c (finish_sameButSet (by simpa using hk) r ..)
  | store c f x y =>
    simp only [exec, execStore, setRegs_x hk]
    exact whenHolds_sameButSet hk r c (finish_sameButSet hk r ..)
  | movXBit c f x b =>
    simp only [exec, execMovXBit, setRegs_xBit hk]
    exact whenHolds_sameButSet hk r c (finish_sameButSet hk r ..)
  | reservedOp4 c f p => exact whenHolds_sameButSet hk r c (.refused _)
  | reservedIncPc c f => exact whenHolds_sameButSet hk r c (.refused _)
  | movBitX c f x b | clearBit c f x b | setBit c f x b | notBit c f x b =>
    simp only [exec, execMovBitX, execClearBit, execSetBit, execNotBit, setRegs_flagX hk, setRegs_xBit hk]
    exact finishBit_sameButSet hk r ..
  | divReg c f x y | idivReg c f x y =>
    simp only [exec, execDivReg, execIdivReg, setRegs_x hk, setRegs_cfg]
    split
    · exact whenHolds_sameButSet hk r c (finishOpenDivision_sameButSet hk r ..)
    · exact finishReg_sameButSet hk r ..
  | inc c f x =>
    simp only [exec, execInc, setRegs_x hk]
    split
    · exact whenHolds_sameButSet hk r c (.refused _)
    · exact finishReg_sameButSet hk r ..
  | _ =>
    simp only [exec, execMovReg, execMovLow, execMovHigh, execAddPc, execAddReg, execSubReg, execAndReg, execOrReg,
      execXorReg, execShlReg, execShrReg, execSarReg, execMulReg, execImulReg, execShlImm, execShrImm, execSarImm,
      execDec, execNotReg, execNegReg, setRegs_x hk, setRegs_cfg]
    exact finishReg_sameButSet hk r ..

end InactiveSetReplaced

/-- Settles O25: the two answers differ at most in the contents of the set that was replaced. -/
theorem inactiveSetIsNotRead : Obligations.InactiveSetIsNotRead := by
  intro i s t k r hk h
  have hsame := exec_sameButSet hk r i
  rw [h] at hsame
  obtain ⟨r', h'⟩ := hsame.next_left
  refine ⟨t.setRegs k r', h', setRegs_regs_of_ne t r' hk.symm, ?_⟩
  simp

/-! ### Halting -/

/-- What the two reacting moves to bit `b` of R14 have in common: they end as a move of the constant 1 does. -/
theorem exec_of_movesOneToFG {b : BitNo} {i : Instr} {s : State} (h : movesOneToFG b i s = true) :
    condHolds i.cond s.fg = true ∧ i.cond ≠ .no ∧
      exec i s = finishBit i.cond i.flagUpdate 14 b true (moveReaction 14 b true) s := by
  cases i with
  | setBit c f x n =>
    simp only [movesOneToFG, Bool.and_eq_true, decide_eq_true_eq] at h
    obtain ⟨⟨⟨hc, hno⟩, rfl⟩, rfl⟩ := h
    exact ⟨hc, hno, rfl⟩
  | movBitX c f x n =>
    simp only [movesOneToFG, Bool.and_eq_true, decide_eq_true_eq] at h
    obtain ⟨⟨⟨⟨hc, hno⟩, rfl⟩, rfl⟩, hX⟩ := h
    exact ⟨hc, hno, by rw [exec, execMovBitX, hX]; rfl⟩
  | _ => exact Bool.noConfusion h

/-- A reacting move to R14:13 leaves the processor halted (60_exceptions R276). -/
theorem halted_of_asksHalt {i : Instr} {s t : State} (h : asksHalt i s = true) (ht : exec i s = .next t) :
    t.halted = true := by
  obtain ⟨hc, hno, he⟩ := exec_of_movesOneToFG h
  obtain ⟨t', hf, hres, -⟩ := finish_halt_spec i.cond hno i.flagUpdate 14
    ⟨putBit (s.x 14) 13 true, bitFlags true⟩ s
  rw [he, finishBit, whenHolds_of_holds hc] at ht
  obtain rfl : t' = t := Host.Outcome.next.inj (hf.symm.trans ht)
  simpa using hres.halted

/-- Settles O26: lines 7 to 9 leave a running processor halted by the reaction alone, and the halt is asked for by the two
moves alone. -/
theorem haltOnlyByTheReactingMoves : Obligations.HaltOnlyByTheReactingMoves := by
  intro i s t hs h
  refine ⟨fun ht => ?_, fun ha => halted_of_asksHalt ha h⟩
  rcases exec_cases h with rfl | ⟨u, d, fl, r, hf⟩
  · simp [hs] at ht
  · have hu : u.halted = false := hf.prepared.halted.trans hs
    rcases finish_cases hf.result with ⟨-, rfl⟩ | ⟨hc, rfl⟩
    · simp [hu] at ht
    · by_cases hr : r = .halt
      · exact (hf.halt hr).resolve_left hc
      · rw [switchIf_halted, react_halted_of_ne_halt _ (by simpa using hu) hr] at ht
        cases ht

/-! ### The parameters and the program space -/

/-- No instruction writes the launch parameters or the program space (20_memory R60, R75). -/
theorem exec_cfg_progMem {i : Instr} {s t : State} (h : exec i s = .next t) :
    t.cfg = s.cfg ∧ t.progMem = s.progMem := by
  rcases exec_cases h with rfl | ⟨u, d, fl, r, hf⟩
  · exact ⟨rfl, rfl⟩
  · rw [← hf.prepared.cfg, ← hf.prepared.progMem]
    rcases finish_cases hf.result with ⟨-, rfl⟩ | ⟨-, rfl⟩ <;> simp

/-- No step writes the launch parameters or the program space. -/
theorem step_cfg_progMem {s t : State} (h : step s = .next t) : t.cfg = s.cfg ∧ t.progMem = s.progMem := by
  rcases step_cases h with ⟨-, rfl⟩ | ⟨-, -, rfl⟩ | ⟨-, -, h⟩
  · simp
  · simp
  · simpa using exec_cfg_progMem (runInstruction_cases h).2

/-- Settles O23: with separate address spaces a fetch reads the program space alone. -/
theorem splitProgramIsNeverWritten : Obligations.SplitProgramIsNeverWritten := by
  intro s t h
  obtain ⟨hcfg, hprog⟩ := step_cfg_progMem h
  refine ⟨hcfg, fun hsplit a => ?_⟩
  simp only [State.fetchWord, State.progWord, hcfg, hsplit, hprog]

/-! ### Reads of R14, the halted processor, reset -/

/-- Settles O33: bit 15 is K, and a live read is a word with A, L and G computed. -/
theorem readsOfTheFlagRegister : Obligations.ReadsOfTheFlagRegister := by
  refine ⟨fun s k => ?_, fun s k hlive => ?_, fun cfg hlive => ?_⟩
  · rw [← msb_read_fg s.cfg k (s.regs k), BitVec.msb_eq_getLsbD_last]
    rfl
  · have hread : readFlags s.cfg (s.regs k).fg = withAlg (s.regs k).fg := by rw [readFlags, hlive]
    simp only [regOf_fg_bits, Nat.reduceLT, hread]
    exact withAlg_reads _
  · have hread : readFlags cfg 0#15 = 0x0080#15 := by
      rw [readFlags, hlive]
      decide
    rw [State.x, read_fg _ _ _ _ rfl]
    change BitVec.ofBool false ++ readFlags cfg 0#15 = 0x0080#16
    rw [hread]
    rfl

/-- Settles O13: such a step uses up a sample and ends. -/
theorem haltedProcessorDoesNothing : Obligations.HaltedProcessorDoesNothing := by
  intro s hreset hhalted
  rw [step, if_neg (by simp [hreset]), if_pos hhalted, State.consumeInputs]

theorem reset_regs (k : Context) : State.reset.regs k = RegSet.zero := by cases k <;> rfl

theorem RegSet.zero_gpr (n : Nat) (h : n < 14) : RegSet.zero.gpr[n] = 0#16 := Vector.getElem_replicate h

/-- Settles O17: both sets are the zero set, so I is 0 and the first fetch is from its R15. -/
theorem resetState : Obligations.ResetState := by
  refine ⟨rfl, rfl, fun k n h => ?_, fun k => ?_, fun k => ?_, by decide, by decide, rfl⟩
  · simp only [reset_regs, RegSet.zero_gpr]
  · rw [reset_regs]; rfl
  · rw [reset_regs]; rfl

end Sys2Proof.Machine

namespace Sys2Proof.Machine

/-! ### The fetch of a running processor -/

/-- Using up a sample and taking the interrupt do not see each other. -/
theorem sampleInterrupt_consumeInputs (s : State) (q : Bool) :
    s.consumeInputs.sampleInterrupt q = (s.sampleInterrupt q).consumeInputs := by
  have htakes : s.consumeInputs.takesInterrupt q = s.takesInterrupt q := rfl
  simp only [State.sampleInterrupt, htakes]
  split <;> rfl

/-- A fetch reads the parameters and the two memories alone (20_memory R60, R62). -/
theorem fetchWord_congr {s t : State} (hcfg : t.cfg = s.cfg) (hmem : SameMemory s t) (a : Word) :
    t.fetchWord a = s.fetchWord a := by
  simp only [State.fetchWord, hcfg, hmem.data, hmem.prog]

/-- Lines 2 to 9 of the step, seen from the state it starts in: where it fetches, what word, and where it is refused
(40_execution_model R120, 20_memory R62). -/
theorem step_of_running {s : State} (hreset : s.lines.reset = false) (hhalted : s.halted = false) :
    step s =
      if s.fetchIsIo s.nextFetchAddress then .refused (.fetchFromIoRegion s.nextFetchAddress)
      else exec (decodeWord (s.fetchWord s.nextFetchAddress)) (s.sampleInterrupt s.lines.irq).consumeInputs.advancePc := by
  have hio : ∀ a, (s.sampleInterrupt s.lines.irq).consumeInputs.fetchIsIo a = s.fetchIsIo a := by
    simp [State.fetchIsIo, State.isIo]
  have hword : ∀ a, (s.sampleInterrupt s.lines.irq).consumeInputs.fetchWord a = s.fetchWord a :=
    fetchWord_congr (by simp) (sameMemory_of_eq (by simp) (by simp))
  rw [step, if_neg (by simp [hreset]), if_neg (by simp [hhalted]), sampleInterrupt_consumeInputs, runInstruction,
    hio, hword, consumeInputs_regs, consumeInputs_K]
  rfl

/-- Settles O15: with one space the fetch is refused wherever a device is. -/
theorem fetchFromADeviceIsRefused : Obligations.FetchFromADeviceIsRefused := by
  intro s hreset hhalted hspace hio
  have hfetch : s.fetchIsIo s.nextFetchAddress = true := by rw [State.fetchIsIo, hspace, hio]
  rw [step_of_running hreset hhalted, if_pos hfetch]

/-! ### What an instruction does when its condition holds -/

/-- Why an instruction is refused: it is reserved, or an open division under DIV_ZERO = refuse (30_encoding R97, R98,
46_multiply_divide R224). -/
inductive Stop (i : Instr) (s : State) : Refusal → Prop where
  | reservedOp4 (hi : ∃ c f p, i = .reservedOp4 c f p) : Stop i s .reservedOpcode0100
  | reservedIncPc (hi : (∃ c f, i = .reservedIncPc c f) ∨ i.wellFormed = false) : Stop i s .reservedIncrementOfR15
  | division (hcfg : s.cfg.divZero = .refuse) (hi : isOpenDivision i s = true) : Stop i s .divisionRefused

/-- What stands behind line 4 of an instruction: lines 7 to 9, or a refusal. Only a load's lines 7 to 9 start from a state
with a further device event, and only a store's write memory (20_memory R65). -/
inductive Body (i : Instr) (s : State) : Result → Prop where
  | finishes {u : State} {d : Dest} (fl : FlagInputs) (r : Reaction) (prepared : Prepared s u)
      (log : isLoad i = false → u.ioLog = s.ioLog) (mem : isStore i = false → ∀ a v, d ≠ .mem a v) :
      Body i s (finish i.cond i.flagUpdate d fl r u)
  | refused {e : Refusal} (stop : Stop i s e) : Body i s (.refused e)

/-- Lines 7 to 9 from the very state, with a result that is no memory word. -/
theorem Body.of_finish {i : Instr} {s : State} {d : Dest} {fl : FlagInputs} {r : Reaction}
    (hd : ∀ a v, d ≠ .mem a v) : Body i s (finish i.cond i.flagUpdate d fl r s) :=
  .finishes fl r .same (fun _ => rfl) fun _ => hd

theorem Body.of_openDivision {i : Instr} {s : State} {d : Reg} (hi : isOpenDivision i s = true) :
    Body i s (finishOpenDivision i.cond i.flagUpdate d s) := by
  unfold finishOpenDivision
  split
  · exact .finishes _ _ .drew (fun _ => rfl) nofun
  · exact .refused (.division ‹_› hi)

/-- The test of `execIdivReg` is the spec's (46_multiply_divide R224). -/
theorem isOpenDivision_idivReg (c f x y) (s : State) :
    isOpenDivision (.idivReg c f x y) s = true ↔
      s.x (low y) = 0#16 ∨ idivOverflows s.cfg (s.x (low x)) (s.x (low y)) = true := by
  simp [isOpenDivision, idivOverflows, and_assoc]

/-- Line 4 guards every instruction (40_execution_model R120, R123). -/
theorem exec_eq_whenHolds (i : Instr) (s : State) : ∃ b, exec i s = whenHolds i.cond s b ∧ Body i s b := by
  cases i with
  | load c f x y => exact ⟨_, rfl, .finishes (d := .reg x _) _ _ (.loaded _) nofun nofun⟩
  | store c f x y => exact ⟨_, rfl, .finishes _ _ .same (fun _ => rfl) nofun⟩
  | reservedOp4 c f p => exact ⟨_, rfl, .refused (.reservedOp4 ⟨c, f, p, rfl⟩)⟩
  | reservedIncPc c f => exact ⟨_, rfl, .refused (.reservedIncPc (.inl ⟨c, f, rfl⟩))⟩
  | inc c f x =>
    by_cases hx : x.val = 15
    · exact ⟨_, if_pos hx, .refused (.reservedIncPc (.inr (by simpa [Instr.wellFormed] using Fin.ext hx)))⟩
    · exact ⟨_, if_neg hx, .of_finish nofun⟩
  | divReg c f x y =>
    by_cases hopen : s.x (low y) = 0#16
    · exact ⟨_, if_pos hopen, .of_openDivision (decide_eq_true hopen)⟩
    · exact ⟨_, if_neg hopen, .of_finish nofun⟩
  | idivReg c f x y =>
    by_cases hopen : s.x (low y) = 0#16 ∨ idivOverflows s.cfg (s.x (low x)) (s.x (low y)) = true
    · exact ⟨_, if_pos hopen, .of_openDivision ((isOpenDivision_idivReg c f x y s).mpr hopen)⟩
    · exact ⟨_, if_neg hopen, .of_finish nofun⟩
  | _ => exact ⟨_, rfl, .of_finish nofun⟩

theorem finish_ne_refused (c f d fl r s) (e : Refusal) : finish c f d fl r s ≠ .refused e := by
  unfold finish
  split <;> exact nofun

/-- If an instruction is refused, its condition holds. -/
theorem exec_refused {i : Instr} {s : State} {e : Refusal} (h : exec i s = .refused e) :
    condHolds i.cond s.fg = true ∧ Stop i s e := by
  obtain ⟨b, hb, hbody⟩ := exec_eq_whenHolds i s
  rw [hb, whenHolds] at h
  split at h
  · cases hbody with
    | finishes => exact absurd h (finish_ne_refused _ _ _ _ _ _ _)
    | refused stop => cases h; exact ⟨‹_›, stop⟩
  · cases h

/-! ### Refused steps -/

theorem decodeOp8_wellFormed (w : Word) : (decodeOp8 w).wellFormed = true := by
  unfold decodeOp8
  split
  · split
    · rfl
    · exact decide_eq_true ‹_›
  all_goals rfl

theorem decodeOp6_wellFormed (w : Word) : (decodeOp6 w).wellFormed = true := by
  unfold decodeOp6
  split
  case h_16 => exact decodeOp8_wellFormed w
  all_goals rfl

/-- No word decodes to an increment of R15 (30_encoding R98). -/
theorem decodeWord_wellFormed (w : Word) : (decodeWord w).wellFormed = true := by
  unfold decodeWord
  split
  case h_13 => exact decodeOp6_wellFormed w
  all_goals rfl

@[simp] theorem consumeInputs_fg (s : State) : s.consumeInputs.fg = s.fg := by
  rw [State.fg, consumeInputs_regs, consumeInputs_K, State.fg]

@[simp] theorem consumeInputs_x (s : State) (i : Reg) : s.consumeInputs.x i = s.x i := by
  rw [State.x, consumeInputs_regs, consumeInputs_K, consumeInputs_cfg, State.x]

@[simp] theorem advancePc_fg (s : State) : s.advancePc.fg = s.fg := by
  rw [State.fg, advancePc_K, advancePc_regs_active, State.fg]

/-- The advance of R15 is not seen in R0 to R7. -/
@[simp] theorem advancePc_x_low (s : State) (x : LowReg) : s.advancePc.x (low x) = s.x (low x) := by
  have hx : (low x).val < 14 := Nat.lt_trans x.isLt (by decide)
  rw [State.x, advancePc_K, advancePc_regs_active, read_gpr _ _ _ _ hx, State.x, read_gpr _ _ _ _ hx]

/-- Whether a division is open depends on R0 to R7 and the parameters alone (46_multiply_divide R224). -/
theorem isOpenDivision_congr {s t : State} (hcfg : t.cfg = s.cfg) (hx : ∀ x, t.x (low x) = s.x (low x)) (i : Instr) :
    isOpenDivision i t = isOpenDivision i s := by
  cases i with
  | divReg c f x y | idivReg c f x y => simp only [isOpenDivision, hcfg, hx]
  | _ => rfl

theorem fetchIsIo_iff (s : State) (a : Word) :
    s.fetchIsIo a = true ↔ s.cfg.addressSpace = .unified ∧ s.isIo a = true := by
  unfold State.fetchIsIo
  split <;> simp [*]

/-- A refused step is one of a running processor (60_exceptions R276, 70_reset_and_hazards R300). -/
theorem running_of_step_refused {s : State} {e : Refusal} (h : step s = .refused e) :
    s.lines.reset = false ∧ s.halted = false := by
  unfold step at h
  split_ifs at h with hreset hhalted
  exact ⟨by simpa using hreset, by simpa using hhalted⟩

/-- Settles O18: a running processor is refused at its fetch, or by the instruction fetched; the three refusals of an
instruction are behind its condition, and no word decodes to the increment of R15. -/
theorem stepRefusesOnlyWhereTheSpecDoes : Obligations.StepRefusesOnlyWhereTheSpecDoes := by
  intro s e h
  obtain ⟨hreset, hhalted⟩ := running_of_step_refused h
  refine ⟨hreset, hhalted, ?_⟩
  rw [step_of_running hreset hhalted] at h
  split at h
  next hfetch =>
    cases h
    obtain ⟨hspace, hio⟩ := (fetchIsIo_iff ..).mp hfetch
    exact .inl ⟨hspace, hio, rfl⟩
  next =>
    obtain ⟨hcond, stop⟩ := exec_refused h
    refine .inr ⟨by simpa using hcond, ?_⟩
    cases stop with
    | reservedOp4 hi => exact .inl ⟨rfl, hi⟩
    | reservedIncPc hi => exact .inr (.inl ⟨rfl, hi.resolve_right (by simp [decodeWord_wellFormed])⟩)
    | division hcfg hi =>
      rw [isOpenDivision_congr (s := s.sampleInterrupt s.lines.irq) (by simp) (by simp)] at hi
      exact .inr (.inr ⟨rfl, by simpa using hcfg, hi⟩)

/-! ### What reaches memory -/

theorem Prepared.dataMem {s u : State} (h : Prepared s u) : u.dataMem = s.dataMem := by cases h <;> simp

/-- A destination that is no memory word reaches neither memory nor a device (20_memory R65). -/
theorem writeBack_of_ne_mem (s : State) {d : Dest} (hd : ∀ a v, d ≠ .mem a v) :
    (s.writeBack d).dataMem = s.dataMem ∧ (s.writeBack d).ioLog = s.ioLog := by
  cases d with
  | reg d v => simp [State.writeBack]
  | flagX b => simp [State.writeBack]
  | mem a v => exact absurd rfl (hd a v)

theorem finish_of_ne_mem {c f d fl r} {s t : State} (hd : ∀ a v, d ≠ .mem a v) (h : finish c f d fl r s = .next t) :
    t.dataMem = s.dataMem ∧ t.ioLog = s.ioLog := by
  rcases finish_cases h with ⟨-, rfl⟩ | ⟨-, rfl⟩
  · simp
  · simpa using writeBack_of_ne_mem s hd

/-- An instruction that is no store leaves the list of known words; one that is no load either leaves the device record. -/
theorem exec_of_not_store {i : Instr} {s t : State} (h : exec i s = .next t) (hi : isStore i = false) :
    t.dataMem = s.dataMem ∧ (isLoad i = false → t.ioLog = s.ioLog) := by
  obtain ⟨b, hb, hbody⟩ := exec_eq_whenHolds i s
  rw [hb] at h
  rcases whenHolds_next h with rfl | ⟨-, h⟩
  · exact ⟨rfl, fun _ => rfl⟩
  · cases hbody with
    | finishes fl r prepared log mem =>
      obtain ⟨hdata, hlog⟩ := finish_of_ne_mem (mem hi) h
      exact ⟨hdata.trans prepared.dataMem, fun hl => hlog.trans (log hl)⟩
    | refused => cases h

/-- Settles O27: only a store's destination is a memory word, and only a load reads from a device. -/
theorem onlyLoadsAndStoresReachMemory : Obligations.OnlyLoadsAndStoresReachMemory := by
  intro i s t h
  exact ⟨fun hs => sameMemory_of_eq (exec_of_not_store h hs).1 (exec_cfg_progMem h).2,
    fun hs hl => (exec_of_not_store h hs).2 hl⟩

/-! ### The canonical form of memory -/

theorem writeBack_wf (s : State) (d : Dest) (h : s.dataMem.wf = true) : (s.writeBack d).dataMem.wf = true := by
  cases d with
  | reg d v => simpa [State.writeBack] using h
  | flagX b => simpa [State.writeBack] using h
  | mem a v => exact storeWord_wf s a v h

theorem exec_dataMem_wf {i : Instr} {s t : State} (h : exec i s = .next t) (hs : s.dataMem.wf = true) :
    t.dataMem.wf = true := by
  rcases exec_cases h with rfl | ⟨u, d, fl, r, hf⟩
  · exact hs
  · have hu : u.dataMem.wf = true := hf.prepared.dataMem ▸ hs
    rcases finish_cases hf.result with ⟨-, rfl⟩ | ⟨-, rfl⟩
    · simpa using hu
    · simpa using writeBack_wf u d hu

/-- Settles O20: of all a step does only a store's write-back touches a list of words, and a write keeps it canonical. -/
theorem stepKeepsMemoryCanonical : Obligations.StepKeepsMemoryCanonical := by
  intro s t hs h
  refine ⟨?_, by rw [(step_cfg_progMem h).2]; exact hs.prog⟩
  rcases step_cases h with ⟨-, rfl⟩ | ⟨-, -, rfl⟩ | ⟨-, -, hrun⟩
  · exact hs.data
  · exact hs.data
  · exact exec_dataMem_wf (runInstruction_cases hrun).2 (by simpa using hs.data)

theorem Memory.risingFrom_cons {lo b : Nat} {w : Word} {m : Memory} :
    Memory.risingFrom lo ((b, w) :: m) = true ↔ lo ≤ b ∧ b < 65536 ∧ Memory.risingFrom (b + 1) m = true := by
  simp [Memory.risingFrom, and_assoc]

theorem Memory.read_head (b : Nat) (w : Word) (m : Memory) : Memory.read ((b, w) :: m) b = some w := if_pos rfl

/-- A list rising from `lo` knows no word below `lo`. -/
theorem Memory.read_eq_none_of_lt {m : Memory} {lo a : Nat} (h : Memory.risingFrom lo m = true) (ha : a < lo) :
    m.read a = none := by
  induction m generalizing lo with
  | nil => rfl
  | cons e m ih =>
    obtain ⟨b, w⟩ := e
    obtain ⟨hlo, -, hm⟩ := risingFrom_cons.mp h
    rw [Memory.read, if_neg (by omega), ih hm (by omega)]

/-- A list that knows the first word of another starts no higher. -/
theorem Memory.le_of_read_cons_eq {lo b : Nat} {w : Word} {m m' : Memory} (h' : Memory.risingFrom lo m' = true)
    (heq : Memory.read ((b, w) :: m) b = m'.read b) : lo ≤ b := by
  by_contra hlt
  rw [read_head, read_eq_none_of_lt h' (by omega)] at heq
  cases heq

/-- Two rising lists that answer alike are equal: their heads are at the same least known address, and their tails answer
alike. -/
theorem Memory.eq_of_read_eq {m m' : Memory} {lo lo' : Nat} (h : Memory.risingFrom lo m = true)
    (h' : Memory.risingFrom lo' m' = true) (heq : ∀ a, m.read a = m'.read a) : m = m' := by
  induction m generalizing lo lo' m' with
  | nil =>
    cases m' with
    | nil => rfl
    | cons e' m' => exact nomatch (heq e'.1).trans (read_head e'.1 e'.2 m')
  | cons e m ih =>
    obtain ⟨b, w⟩ := e
    cases m' with
    | nil => exact nomatch (heq b).symm.trans (read_head b w m)
    | cons e' m' =>
      obtain ⟨b', w'⟩ := e'
      obtain ⟨-, hb, hm⟩ := risingFrom_cons.mp h
      obtain ⟨-, hb', hm'⟩ := risingFrom_cons.mp h'
      have hle : b' ≤ b := le_of_read_cons_eq (risingFrom_cons.mpr ⟨le_refl _, hb', hm'⟩) (heq b)
      have hge : b ≤ b' := le_of_read_cons_eq (risingFrom_cons.mpr ⟨le_refl _, hb, hm⟩) (heq b').symm
      obtain rfl : b = b' := Nat.le_antisymm hge hle
      obtain rfl : w = w' := by simpa [read_head] using heq b
      have htails : ∀ a, Memory.read m a = Memory.read m' a := by
        intro a
        by_cases ha : a = b
        · rw [read_eq_none_of_lt hm (by omega), read_eq_none_of_lt hm' (by omega)]
        · simpa [Memory.read, ha] using heq a
      rw [ih hm hm' htails]

/-- Settles O22: a canonical list is its reads, listed from the least known address on. -/
theorem canonicalMemoriesAreExtensional : Obligations.CanonicalMemoriesAreExtensional :=
  fun _ _ h h' heq => Memory.eq_of_read_eq h h' heq

end Sys2Proof.Machine

namespace Sys2Proof.Machine

/-! ### The reserved rows -/

theorem exec_of_isReserved_of_holds {i : Instr} {s : State} (hi : i.isReserved = true)
    (hc : condHolds i.cond s.fg = true) : ∃ e, exec i s = .refused e := by
  cases i with
  | reservedOp4 c f p => exact ⟨_, whenHolds_of_holds hc _⟩
  | reservedIncPc c f => exact ⟨_, whenHolds_of_holds hc _⟩
  | _ => cases hi

/-- Settles O59: both reserved rows are a refusal behind line 4. -/
theorem reservedWordsStop : Obligations.ReservedWordsStop := by
  intro c f p s
  exact ⟨fun h => ⟨whenHolds_of_holds h _, whenHolds_of_holds h _⟩,
    fun h => ⟨whenHolds_of_fails h _, whenHolds_of_fails h _⟩⟩

/-- Settles O6, by running the decoder on the listed words. -/
theorem sampleWordsDecode : Obligations.SampleWordsDecode := by
  unfold Obligations.SampleWordsDecode
  decide

/-! ### The fields of a word -/

/-- Bits a mask keeps whole are the pattern's. -/
theorem extractLsb'_of_and_eq {w mask pattern : Word} {start len : Nat} (h : w &&& mask = pattern)
    (hmask : mask.extractLsb' start len = BitVec.allOnes len) :
    w.extractLsb' start len = pattern.extractLsb' start len := by
  rw [← h, BitVec.extractLsb'_and, hmask, BitVec.and_allOnes]

/-- Among the codes of 30_encoding R94 a shorter code is the front of a longer one. -/
theorem op4Field_eq_op6Field_div (w : Word) : op4Field w = op6Field w / 4 := by
  simp only [op4Field, op6Field, BitVec.extractLsb'_toNat, Nat.shiftRight_eq_div_pow]
  omega

theorem op6Field_eq_op8Field_div (w : Word) : op6Field w = op8Field w / 4 := by
  simp only [op6Field, op8Field, BitVec.extractLsb'_toNat, Nat.shiftRight_eq_div_pow]
  omega

theorem op6Field_lt (w : Word) : op6Field w < 64 := (w.extractLsb' 6 6).isLt

theorem op8Field_lt (w : Word) : op8Field w < 256 := (w.extractLsb' 4 8).isLt

theorem condCode_condOfCode (b : BitVec 3) : condCode (condOfCode b.toNat) = b := by
  revert b
  decide

theorem condOfCode_condCode (c : Cond) : condOfCode (condCode c).toNat = c := by cases c <;> rfl

theorem flagCode_flagField (w : Word) : flagCode (flagField w) = w.extractLsb' 12 1 := by
  apply BitVec.eq_of_getLsbD_eq
  intro n hn
  obtain rfl : n = 0 := by omega
  rw [BitVec.getLsbD_extractLsb', flagField]
  cases w.getLsbD 12 <;> rfl

/-- The top four bits of a word are the codes of its condition and f bit (30_encoding R91). -/
theorem header_eq (w : Word) : condCode (condField w) ++ flagCode (flagField w) = w.extractLsb' 12 4 := by
  rw [condField, condCode_condOfCode, flagCode_flagField]
  exact BitVec.extractLsb'_append_extractLsb'_eq_extractLsb' rfl

/-! ### A word is its layout of its own fields -/

theorem ofNat_highQuartet (w : Word) : BitVec.ofNat 4 (highQuartet w).val = w.extractLsb' 4 4 := BitVec.ofNat_finVal _

theorem ofNat_lowQuartet (w : Word) : BitVec.ofNat 4 (lowQuartet w).val = w.extractLsb' 0 4 := BitVec.ofNat_finVal _

theorem ofNat_highTriple (w : Word) : BitVec.ofNat 3 (highTriple w).val = w.extractLsb' 3 3 := BitVec.ofNat_finVal _

theorem ofNat_lowTriple (w : Word) : BitVec.ofNat 3 (lowTriple w).val = w.extractLsb' 0 3 := BitVec.ofNat_finVal _

theorem encodeRR4_fields {op : BitVec 4} {w : Word} (h : op4Field w = op.toNat) :
    encodeRR4 op (condField w) (flagField w) (highQuartet w) (lowQuartet w) = w := by
  obtain rfl : w.extractLsb' 8 4 = op := BitVec.eq_of_toNat_eq h
  simp only [encodeRR4, header_eq, ofNat_highQuartet, ofNat_lowQuartet,
    BitVec.extractLsb'_append_extractLsb'_eq_extractLsb', BitVec.extractLsb'_eq_self]

theorem encodeB8_fields {op : BitVec 4} {w : Word} (h : op4Field w = op.toNat) :
    encodeB8 op (condField w) (flagField w) (byteField w) = w := by
  obtain rfl : w.extractLsb' 8 4 = op := BitVec.eq_of_toNat_eq h
  simp only [encodeB8, header_eq, byteField, BitVec.extractLsb'_append_extractLsb'_eq_extractLsb',
    BitVec.extractLsb'_eq_self]

theorem encodeRR3_fields {op : BitVec 6} {w : Word} (h : op6Field w = op.toNat) :
    encodeRR3 op (condField w) (flagField w) (highTriple w) (lowTriple w) = w := by
  obtain rfl : w.extractLsb' 6 6 = op := BitVec.eq_of_toNat_eq h
  simp only [encodeRR3, header_eq, ofNat_highTriple, ofNat_lowTriple,
    BitVec.extractLsb'_append_extractLsb'_eq_extractLsb', BitVec.extractLsb'_eq_self]

theorem encodeR4_fields {op : BitVec 8} {w : Word} (h : op8Field w = op.toNat) :
    encodeR4 op (condField w) (flagField w) (lowQuartet w) = w := by
  obtain rfl : w.extractLsb' 4 8 = op := BitVec.eq_of_toNat_eq h
  simp only [encodeR4, header_eq, ofNat_lowQuartet, BitVec.extractLsb'_append_extractLsb'_eq_extractLsb',
    BitVec.extractLsb'_eq_self]

/-! ### Encoding a decoded word -/

theorem decodeOp6_eq_decodeOp8 {w : Word} (h : 252 ≤ op8Field w) : decodeOp6 w = decodeOp8 w := by
  have h6 := op6Field_eq_op8Field_div w
  unfold decodeOp6
  split
  case h_16 => rfl
  all_goals omega

theorem decodeWord_eq_decodeOp6 {w : Word} (h : 48 ≤ op6Field w) : decodeWord w = decodeOp6 w := by
  have h4 := op4Field_eq_op6Field_div w
  unfold decodeWord
  split
  case h_13 => rfl
  all_goals omega

theorem encode_decodeOp8 {w : Word} (h : 252 ≤ op8Field w) : encode (decodeOp8 w) = w := by
  unfold decodeOp8
  split
  case h_1 h8 =>
    have hw : encodeR4 252#8 (condField w) (flagField w) (lowQuartet w) = w := encodeR4_fields h8
    split
    next hx => rwa [hx] at hw
    next => exact hw
  case h_2 h8 | h_3 h8 => exact encodeR4_fields h8
  case h_4 h1 h2 h3 =>
    have hlt := op8Field_lt w
    simp only [imp_false] at h1 h2 h3
    exact encodeR4_fields (show op8Field w = 255 by omega)

theorem encode_decodeOp6 {w : Word} (h : 48 ≤ op6Field w) : encode (decodeOp6 w) = w := by
  unfold decodeOp6
  split
  case h_16 =>
    have h6 := op6Field_eq_op8Field_div w
    have hlt := op6Field_lt w
    simp only [imp_false] at *
    exact encode_decodeOp8 (by omega)
  all_goals exact encodeRR3_fields ‹_›

theorem encode_decodeWord (w : Word) : encode (decodeWord w) = w := by
  unfold decodeWord
  split
  case h_13 =>
    have h4 := op4Field_eq_op6Field_div w
    simp only [imp_false] at *
    exact encode_decodeOp6 (by omega)
  case h_5 h4 | h_10 h4 | h_11 h4 | h_12 h4 => exact encodeB8_fields h4
  all_goals exact encodeRR4_fields ‹_›

/-- Settles O2: each branch of the decoder puts the fields of its layout back where they were read. -/
theorem encodeOfDecode : Obligations.EncodeOfDecode :=
  fun w => ⟨decodeWord_wellFormed w, encode_decodeWord w⟩

/-! ### The header of every layout -/

/-- Whatever its layout, the top four bits of a word are the condition's code and the f bit (30_encoding R91). -/
theorem encode_header (i : Instr) : (encode i).extractLsb' 12 4 = condCode i.cond ++ flagCode i.flagUpdate := by
  cases i with
  | movReg | load | store | movXBit | movBitX | clearBit | setBit | notBit => exact Laws.encodeRR4_top ..
  | reservedOp4 | movLow | movHigh | addPc => exact Laws.encodeB8_top ..
  | reservedIncPc | inc | dec | notReg | negReg => exact Laws.encodeR4_top ..
  | _ => exact Laws.encodeRR3_top ..

theorem condCode_injective : Function.Injective condCode :=
  Function.LeftInverse.injective (g := fun b : BitVec 3 => condOfCode b.toNat) condOfCode_condCode

theorem flagCode_injective : Function.Injective flagCode := by
  intro f f'
  cases f <;> cases f' <;> decide

theorem condField_encode (i : Instr) : condField (encode i) = i.cond := by
  have hcode : condCode (condField (encode i)) = condCode i.cond := by
    have h := congrArg (BitVec.extractLsb' 1 3) ((header_eq _).trans (encode_header i))
    rwa [BitVec.extractLsb'_append_eq_left, BitVec.extractLsb'_append_eq_left] at h
  exact condCode_injective hcode

theorem flagField_encode (i : Instr) : flagField (encode i) = i.flagUpdate := by
  have hcode : flagCode (flagField (encode i)) = flagCode i.flagUpdate := by
    have h := congrArg (BitVec.extractLsb' 0 1) ((header_eq _).trans (encode_header i))
    rwa [BitVec.extractLsb'_append_eq_right, BitVec.extractLsb'_append_eq_right] at h
  exact flagCode_injective hcode

theorem cond_decodeWord (w : Word) : (decodeWord w).cond = condField w := by
  rw [← condField_encode, encode_decodeWord]

theorem flagUpdate_decodeWord (w : Word) : (decodeWord w).flagUpdate = flagField w := by
  rw [← flagField_encode, encode_decodeWord]

/-- Settles O5: the header of the word a decoded instruction encodes is read back from that word. -/
theorem headerFieldsOfEveryWord : Obligations.HeaderFieldsOfEveryWord := by
  intro w
  rw [cond_decodeWord, flagUpdate_decodeWord, condField, condCode_condOfCode, flagField]
  refine ⟨rfl, ?_⟩
  cases w.getLsbD 12 <;> decide

/-! ### Decoding an encoded instruction -/

theorem extractLsb'_setWidth_shiftLeft {n k : Nat} (op : BitVec n) (h : n + k ≤ 16) :
    (op.setWidth 16 <<< k).extractLsb' k n = op := by
  apply BitVec.eq_of_getLsbD_eq
  intro j hj
  have hlt : k + j < 16 := by omega
  simp [hj, hlt]

theorem op4Field_of_row {w : Word} {op : BitVec 4} (h : w &&& 0x0F00#16 = op.setWidth 16 <<< 8) :
    op4Field w = op.toNat := by
  rw [op4Field, extractLsb'_of_and_eq h (by decide), extractLsb'_setWidth_shiftLeft op (by decide)]

theorem op6Field_of_row {w : Word} {op : BitVec 6} (h : w &&& 0x0FC0#16 = op.setWidth 16 <<< 6) :
    op6Field w = op.toNat := by
  rw [op6Field, extractLsb'_of_and_eq h (by decide), extractLsb'_setWidth_shiftLeft op (by decide)]

theorem op8Field_of_row {w : Word} {op : BitVec 8} (h : w &&& 0x0FF0#16 = op.setWidth 16 <<< 4) :
    op8Field w = op.toNat := by
  rw [op8Field, extractLsb'_of_and_eq h (by decide), extractLsb'_setWidth_shiftLeft op (by decide)]

theorem op4Field_encodeRR4 (op c f y x) : op4Field (encodeRR4 op c f y x) = op.toNat :=
  op4Field_of_row (encodeRR4_word op c f y x).row

theorem op4Field_encodeB8 (op c f b) : op4Field (encodeB8 op c f b) = op.toNat :=
  op4Field_of_row (encodeB8_word op c f b).row

theorem op6Field_encodeRR3 (op c f y x) : op6Field (encodeRR3 op c f y x) = op.toNat :=
  op6Field_of_row (encodeRR3_word op c f y x).row

theorem op8Field_encodeR4 (op c f x) : op8Field (encodeR4 op c f x) = op.toNat :=
  op8Field_of_row (encodeR4_word op c f x).row

/-- A 6-bit code is past the 4-bit codes (30_encoding R94). -/
theorem decodeWord_encodeRR3 {op : BitVec 6} (h : 48 ≤ op.toNat) (c f y x) :
    decodeWord (encodeRR3 op c f y x) = decodeOp6 (encodeRR3 op c f y x) :=
  decodeWord_eq_decodeOp6 (by rwa [op6Field_encodeRR3])

/-- An 8-bit code is past the 4-bit and the 6-bit codes (30_encoding R94). -/
theorem decodeWord_encodeR4 {op : BitVec 8} (h : 252 ≤ op.toNat) (c f x) :
    decodeWord (encodeR4 op c f x) = decodeOp8 (encodeR4 op c f x) := by
  have h8 := op8Field_encodeR4 op c f x
  have h6 := op6Field_eq_op8Field_div (encodeR4 op c f x)
  rw [decodeWord_eq_decodeOp6 (by omega), decodeOp6_eq_decodeOp8 (by omega)]

/-- Every field is read back where its layout put it, and the opcode selects the instruction's row. -/
theorem decodeWord_encode {i : Instr} (hi : i.wellFormed = true) : decodeWord (encode i) = i := by
  have hc := condField_encode i
  have hf := flagField_encode i
  cases i with
  | movReg c f x y | load c f x y | store c f x y | movXBit c f x y | movBitX c f x y | clearBit c f x y
  | setBit c f x y | notBit c f x y =>
    simp only [encode] at hc hf ⊢
    simp [decodeWord, hc, hf, op4Field_encodeRR4, (encodeRR4_word _ c f y x).x, (encodeRR4_word _ c f y x).y,
      Instr.cond, Instr.flagUpdate]
  | reservedOp4 c f b | movLow c f b | movHigh c f b | addPc c f b =>
    simp only [encode] at hc hf ⊢
    simp [decodeWord, hc, hf, op4Field_encodeB8, (encodeB8_word _ c f b).b, Instr.cond, Instr.flagUpdate]
  | reservedIncPc c f =>
    simp only [encode] at hc hf ⊢
    rw [decodeWord_encodeR4 (by decide)]
    simp [decodeOp8, hc, hf, op8Field_encodeR4, (encodeR4_word _ c f 15).x, Instr.cond, Instr.flagUpdate]
  | inc c f x =>
    have hx : x ≠ 15 := of_decide_eq_true hi
    simp only [encode] at hc hf ⊢
    rw [decodeWord_encodeR4 (by decide)]
    simp [decodeOp8, hc, hf, op8Field_encodeR4, (encodeR4_word _ c f x).x, hx, Instr.cond, Instr.flagUpdate]
  | dec c f x | notReg c f x | negReg c f x =>
    simp only [encode] at hc hf ⊢
    rw [decodeWord_encodeR4 (by decide)]
    simp [decodeOp8, hc, hf, op8Field_encodeR4, (encodeR4_word _ c f x).x, Instr.cond, Instr.flagUpdate]
  | addReg c f x y | subReg c f x y | andReg c f x y | orReg c f x y | xorReg c f x y | shlReg c f x y | shrReg c f x y
  | sarReg c f x y | mulReg c f x y | divReg c f x y | imulReg c f x y | idivReg c f x y | shlImm c f x y
  | shrImm c f x y | sarImm c f x y =>
    simp only [encode] at hc hf ⊢
    rw [decodeWord_encodeRR3 (by decide)]
    simp [decodeOp6, hc, hf, op6Field_encodeRR3, (encodeRR3_word _ c f y x).x, (encodeRR3_word _ c f y x).y,
      Instr.cond, Instr.flagUpdate]

/-- Settles O1: an instruction is one word, and that word decodes to it. -/
theorem decodeOfEncode : Obligations.DecodeOfEncode := by
  intro i rest hi
  exact ⟨decodeWord_encode hi, by rw [decode, decodeWord_encode hi]⟩

/-! ### The opcode map -/

/-- Two masks and patterns that one word meets agree on the bits both masks keep. -/
theorem OpcodeRow.patterns_agree {r r' : OpcodeRow} {w : Word} (h : r.matchesWord w = true)
    (h' : r'.matchesWord w = true) : r.pattern &&& r'.mask = r'.pattern &&& r.mask := by
  rw [← of_decide_eq_true h, ← of_decide_eq_true h', BitVec.and_assoc, BitVec.and_comm r.mask, ← BitVec.and_assoc]

/-- The rows of 30_encoding R95 disagree on a bit that both masks keep, but for row 27 and its reserved words (R98). -/
theorem opcodeMap_rows_disjoint : ∀ r ∈ opcodeMap, ∀ r' ∈ opcodeMap, r.pattern &&& r'.mask = r'.pattern &&& r.mask →
    r = r' ∨ (r = reservedIncRow ∧ r'.number = 27) ∨ (r.number = 27 ∧ r' = reservedIncRow) := by
  decide

theorem opcodeMap_number_injective : ∀ r ∈ opcodeMap, ∀ r' ∈ opcodeMap, r.number = r'.number → r = r' := by
  decide

/-- The row of an instruction's number holds its word. -/
theorem encode_matches (i : Instr) : ∃ r ∈ opcodeMap, r.number = i.row ∧ r.matchesWord (encode i) = true := by
  cases i with
  | movReg | load | store | movXBit | movBitX | clearBit | setBit | notBit =>
    exact ⟨⟨_, _, _⟩, List.mem_of_elem_eq_true (by rfl), rfl, decide_eq_true (encodeRR4_word ..).row⟩
  | reservedOp4 | movLow | movHigh | addPc =>
    exact ⟨⟨_, _, _⟩, List.mem_of_elem_eq_true (by rfl), rfl, decide_eq_true (encodeB8_word ..).row⟩
  | reservedIncPc c f => exact ⟨reservedIncRow, List.mem_cons_self, rfl, by cases c <;> cases f <;> decide⟩
  | inc | dec | notReg | negReg =>
    exact ⟨⟨_, _, _⟩, List.mem_of_elem_eq_true (by rfl), rfl, decide_eq_true (encodeR4_word ..).row⟩
  | _ => exact ⟨⟨_, _, _⟩, List.mem_of_elem_eq_true (by rfl), rfl, decide_eq_true (encodeRR3_word ..).row⟩

theorem decodeWord_matches (w : Word) : ∃ r ∈ opcodeMap, r.number = (decodeWord w).row ∧ r.matchesWord w = true := by
  simpa only [encode_decodeWord] using encode_matches (decodeWord w)

theorem lowQuartet_of_reservedIncRow {w : Word} (h : reservedIncRow.matchesWord w = true) : lowQuartet w = 15 := by
  rw [lowQuartet, extractLsb'_of_and_eq (of_decide_eq_true h) (by decide)]
  rfl

/-- A reserved word of row 27 is no instruction of that row (30_encoding R98). -/
theorem row_ne_27_of_reservedIncRow {w : Word} (h : reservedIncRow.matchesWord w = true) : (decodeWord w).row ≠ 27 := by
  intro hrow
  have hword := encode_decodeWord w
  have hwf := decodeWord_wellFormed w
  cases hi : decodeWord w with
  | inc c f x =>
    rw [hi] at hword hwf
    have hx : lowQuartet w = x := hword ▸ (encodeR4_word _ c f x).x
    exact of_decide_eq_true hwf (hx ▸ lowQuartet_of_reservedIncRow h)
  | _ => rw [hi] at hrow; cases hrow

/-- A row that holds a word is the row of its instruction, or row 27 where the word is reserved (30_encoding R98). -/
theorem number_of_matches {r : OpcodeRow} {w : Word} (hr : r ∈ opcodeMap) (h : r.matchesWord w = true) :
    r.number = (decodeWord w).row ∨ (r.number = 27 ∧ (decodeWord w).row = 31) := by
  obtain ⟨r', hr', hrow, h'⟩ := decodeWord_matches w
  rcases opcodeMap_rows_disjoint r hr r' hr' (OpcodeRow.patterns_agree h h') with rfl | ⟨rfl, h27⟩ | ⟨h27, rfl⟩
  · exact .inl hrow
  · exact absurd (hrow.symm.trans h27) (row_ne_27_of_reservedIncRow h)
  · exact .inr ⟨h27, hrow.symm⟩

/-- A word is in a row of the map other than row 27 exactly when its instruction is of that row. -/
theorem matches_iff_row_eq {r : OpcodeRow} (hr : r ∈ opcodeMap) (h27 : r.number ≠ 27) (w : Word) :
    r.matchesWord w = true ↔ (decodeWord w).row = r.number := by
  constructor
  · intro h
    exact ((number_of_matches hr h).resolve_right fun h' => h27 h'.1).symm
  · intro hrow
    obtain ⟨r', hr', hrow', h'⟩ := decodeWord_matches w
    exact opcodeMap_number_injective r' hr' r hr (hrow'.trans hrow) ▸ h'

/-- The first row that holds a word, where all rows that hold it have one number. -/
theorem firstRow_eq_some {rs : List OpcodeRow} {r : OpcodeRow} {w : Word} (hr : r ∈ rs) (h : r.matchesWord w = true)
    (huniq : ∀ r' ∈ rs, r'.matchesWord w = true → r'.number = r.number) : firstRow rs w = some r.number := by
  induction rs with
  | nil => cases hr
  | cons r' rs ih =>
    rw [firstRow]
    split
    next h' => rw [huniq r' List.mem_cons_self h']
    next h' =>
      rcases List.mem_cons.mp hr with rfl | hr
      · exact absurd h h'
      · exact ih hr fun r' hr' => huniq r' (List.mem_cons_of_mem _ hr')

theorem firstRow_opcodeMap (w : Word) : firstRow opcodeMap w = some (decodeWord w).row := by
  have h31 := matches_iff_row_eq (r := reservedIncRow) List.mem_cons_self (by decide) w
  by_cases hres : reservedIncRow.matchesWord w = true
  · rw [h31.mp hres]
    exact if_pos hres
  · obtain ⟨r, hr, hrow, h⟩ := decodeWord_matches w
    rw [← hrow]
    refine firstRow_eq_some hr h fun r' hr' h' => ?_
    rcases number_of_matches hr' h' with hrow' | ⟨-, hrow'⟩
    · exact hrow'.trans hrow.symm
    · exact absurd (h31.mpr hrow') hres

/-- Settles O3: a word is in the row of the instruction whose encoding it is, and two rows disagree on a bit of both masks. -/
theorem decoderFollowsTheOpcodeMap : Obligations.DecoderFollowsTheOpcodeMap := by
  refine ⟨firstRow_opcodeMap, fun r r' w hr hr' h h' => ?_⟩
  rcases opcodeMap_rows_disjoint r hr r' hr' (OpcodeRow.patterns_agree h h') with heq | ⟨rfl, h27⟩ | ⟨h27, rfl⟩
  · exact .inl heq
  · exact .inr (.inl ⟨rfl, h27⟩)
  · exact .inr (.inr ⟨h27, rfl⟩)

theorem isReserved_iff_row (i : Instr) : i.isReserved = true ↔ i.row = 0 ∨ i.row = 31 := by
  cases i <;> simp [Instr.isReserved, Instr.row]

/-- Settles O4: the two masks are those of the reserved rows of the opcode map. -/
theorem reservedWordsAreExactly : Obligations.ReservedWordsAreExactly := by
  intro w
  have h0 := matches_iff_row_eq (r := ⟨0, 0x0F00#16, 0x0400#16⟩) (by decide) (by decide) w
  have h31 := matches_iff_row_eq (r := reservedIncRow) (by decide) (by decide) w
  rw [isReserved_iff_row]
  exact or_congr (h0.symm.trans decide_eq_true_iff) (h31.symm.trans decide_eq_true_iff)

/-! ### An executing instruction under the condition `no` -/

/-- The state after the reads and draws of an instruction, which happen under `no` too (40_execution_model R124, log 6). -/
def afterDraw (i : Instr) (s : State) : State :=
  if isOpenDivision i s then { s with draws := s.draws + 1 }
  else
    match i with
    | .load _ _ _ y => s.afterLoad (s.x y)
    | _ => s

theorem afterDraw_of_isOpenDivision {i : Instr} {s : State} (h : isOpenDivision i s = true) :
    afterDraw i s = { s with draws := s.draws + 1 } := if_pos h

theorem afterDraw_of_not_drawsAValue {i : Instr} {s : State} (h : drawsAValue i s = false) : afterDraw i s = s := by
  cases i with
  | load c f x y => exact if_neg (ne_true_of_eq_false h)
  | divReg | idivReg => exact if_neg (ne_true_of_eq_false h)
  | _ => rfl

theorem afterDraw_ioLog {i : Instr} (s : State) (h : isLoad i = false) : (afterDraw i s).ioLog = s.ioLog := by
  unfold afterDraw
  split
  · rfl
  · split
    · cases h
    · rfl

/-- A read or a draw is seen in the device record and the count of draws alone (logs 6, 9). -/
theorem afterDraw_frame (i : Instr) (s : State) :
    afterDraw i s = { s with draws := (afterDraw i s).draws, ioLog := (afterDraw i s).ioLog } := by
  unfold afterDraw State.afterLoad
  split
  · rfl
  · split
    · split <;> rfl
    · rfl

theorem exec_of_isOpenDivision {i : Instr} {s : State} (h : isOpenDivision i s = true) :
    ∃ d, exec i s = whenHolds i.cond s (finishOpenDivision i.cond i.flagUpdate d s) := by
  cases i with
  | divReg c f x y => exact ⟨low x, if_pos (of_decide_eq_true h)⟩
  | idivReg c f x y => exact ⟨low x, if_pos ((isOpenDivision_idivReg c f x y s).mp h)⟩
  | _ => cases h

/-- Under `no` an instruction makes its reads and draws and its flag update, and nothing else (40_execution_model R124, R130). -/
theorem exec_of_no {i : Instr} {s : State} (hcond : i.cond = .no) (hwf : i.wellFormed = true) (hres : i.isReserved = false)
    (hdiv : s.cfg.divZero = .draw ∨ isOpenDivision i s = false) :
    ∃ fl, exec i s = .next ((afterDraw i s).flagLine s.K i.flagUpdate fl) := by
  by_cases hopen : isOpenDivision i s = true
  · have hdraw : s.cfg.divZero = .draw := hdiv.resolve_right (by simp [hopen])
    obtain ⟨d, hexec⟩ := exec_of_isOpenDivision hopen
    rw [hexec, hcond, whenHolds_of_holds rfl, finishOpenDivision, hdraw, afterDraw_of_isOpenDivision hopen]
    exact ⟨_, rfl⟩
  · unfold afterDraw
    rw [if_neg hopen]
    cases i with
    | load c f x y =>
      obtain rfl : c = .no := hcond
      rw [exec, execLoad, whenHolds_of_holds rfl, finish, if_pos rfl, afterLoad_K]
      exact ⟨_, rfl⟩
    | divReg c f x y =>
      obtain rfl : c = .no := hcond
      exact ⟨_, if_neg fun hy => hopen (decide_eq_true hy)⟩
    | idivReg c f x y =>
      obtain rfl : c = .no := hcond
      exact ⟨_, if_neg fun hxy => hopen ((isOpenDivision_idivReg .no f x y s).mpr hxy)⟩
    | inc c f x =>
      obtain rfl : c = .no := hcond
      exact ⟨_, if_neg fun hx => of_decide_eq_true hwf (Fin.ext hx)⟩
    | reservedOp4 | reservedIncPc => cases hres
    | _ =>
      cases hcond
      exact ⟨_, rfl⟩

/-! ### The no-operations -/

theorem cond_flagUpdate_of_noNf {w : Word} (h : w &&& 0xF000#16 = 0xE000#16) :
    (decodeWord w).cond = .no ∧ (decodeWord w).flagUpdate = .nf := by
  rw [cond_decodeWord, flagUpdate_decodeWord, condField, extractLsb'_of_and_eq h (by decide)]
  refine ⟨rfl, flagCode_injective ?_⟩
  rw [flagCode_flagField, extractLsb'_of_and_eq h (by decide)]
  rfl

@[simp] theorem setRegs_self (s : State) (k : Context) : s.setRegs k (s.regs k) = s := by cases k <;> rfl

/-- A register of R0 to R13 written with its own value is as before (40_execution_model R126). -/
theorem writeReg_self (s : State) {d : Reg} (hd : d.val < 14) : s.writeReg d (s.x d) = s := by
  rw [State.writeReg, State.x, read_gpr _ _ _ _ hd, RegSet.write, dif_pos hd, Vector.set_getElem_self, setRegs_self]

/-- Settles O31: under `no` and `nf` only the reads and draws of `exec_of_no` are left; the word 0 is `mov R0, R0`. -/
theorem noOperationWords : Obligations.NoOperationWords := by
  refine ⟨fun w s hw hres hdiv => ?_, fun w s hw hres => ?_, fun s => ?_⟩
  · obtain ⟨hcond, hflag⟩ := cond_flagUpdate_of_noNf hw
    obtain ⟨fl, hexec⟩ := exec_of_no hcond (decodeWord_wellFormed w) hres hdiv
    rw [hflag] at hexec
    exact ⟨_, hexec, afterDraw_of_not_drawsAValue, afterDraw_frame _ s, afterDraw_ioLog s⟩
  · exact exec_of_isReserved_of_holds hres (by rw [(cond_flagUpdate_of_noNf hw).1]; rfl)
  · rw [sampleWordsDecode.1]
    exact congrArg Host.Outcome.next (writeReg_self s (by decide))

end Sys2Proof.Machine

namespace Sys2Proof.Machine

/-! ### Line 4 of the step -/

/-- Settles O29: the condition guards every instruction, the reserved rows included. -/
theorem failedConditionChangesNothing : Obligations.FailedConditionChangesNothing := by
  intro i s hcond
  obtain ⟨b, hexec, -⟩ := exec_eq_whenHolds i s
  rw [hexec, whenHolds_of_fails hcond]

/-- Settles O32: bits 0 to 2 of a read of R14 are the stored C, Z and X under either ALG_MODE. -/
theorem conditionsTestTheirFlag : Obligations.ConditionsTestTheirFlag := by
  intro c s
  have bit : ∀ n, n < 5 → (s.x 14).getLsbD n = s.fg.getLsbD n := fun n hn =>
    (regOf_fg_bits s s.K (by omega)).trans (getLsbD_readFlags_of_not_alg _ _ (.inl hn))
  rw [bit 0 (by decide), bit 1 (by decide), bit 2 (by decide)]
  cases c <;> rfl

/-! ### A step that takes no interrupt -/

theorem sampleInterrupt_of_not_taken {s : State} {q : Bool} (h : s.takesInterrupt q = false) :
    s.sampleInterrupt q = s := if_neg (ne_true_of_eq_false h)

theorem sampleInterrupt_of_taken {s : State} {q : Bool} (h : s.takesInterrupt q = true) :
    s.sampleInterrupt q = s.enterBySignal := if_pos h

theorem takesInterrupt_of_K_interrupt {s : State} (h : s.K = .interrupt) (q : Bool) : s.takesInterrupt q = false := by
  simp [State.takesInterrupt, h]

/-- Lines 3 to 9 of the step where nothing intervenes (40_execution_model R120). -/
theorem step_of_not_taken {s : State} (hreset : s.lines.reset = false) (hhalted : s.halted = false)
    (htaken : s.takesInterrupt s.lines.irq = false) (hio : s.fetchIsIo (s.regs s.K).pc = false) :
    step s = exec (decodeWord (s.fetchWord (s.regs s.K).pc)) s.consumeInputs.advancePc := by
  rw [step_of_running hreset hhalted, State.nextFetchAddress, sampleInterrupt_of_not_taken htaken,
    if_neg (ne_true_of_eq_false hio)]

/-- Settles O10: the state is the given one with a sample used up and R15 advanced. -/
theorem stepRunsTheFetchedInstruction : Obligations.StepRunsTheFetchedInstruction := by
  intro s hreset hhalted htaken hio
  have hstep := step_of_not_taken hreset hhalted htaken hio
  have hactive := advancePc_regs_active s.consumeInputs
  rw [consumeInputs_K, consumeInputs_regs] at hactive
  refine ⟨s.consumeInputs.advancePc, hstep, fun hcond => ?_, by simp, by rw [hactive], by rw [hactive], by rw [hactive],
    fun k hk => ?_, by simpa using hhalted, by simp, by simp, by simp, by simp, by simp, by simp, by simp⟩
  · rw [hstep]
    exact failedConditionChangesNothing _ _ (by simpa using hcond)
  · rw [advancePc_regs_of_ne s.consumeInputs hk, consumeInputs_regs]

/-! ### The stuck loop -/

@[simp] theorem setRegs_setRegs (s : State) (k : Context) (r r' : RegSet) :
    (s.setRegs k r).setRegs k r' = s.setRegs k r' := by cases k <;> rfl

/-- A write of R15 undoes its advance (40_execution_model R121, R126). -/
theorem writeReg_pc_advancePc (s : State) : s.advancePc.writeReg 15 (s.regs s.K).pc = s := by
  rw [State.writeReg, advancePc_K, advancePc_regs_active, State.advancePc, setRegs_setRegs]
  exact setRegs_self s s.K

/-- `sub R15, 1` branches back to itself (40_execution_model R139). -/
theorem exec_dec_pc_advancePc (s : State) : exec (.dec .al .nf 15) s.advancePc = .next s := by
  have hres : (subWords s.advancePc.cfg (s.advancePc.x 15) 1#16).res = (s.regs s.K).pc := by
    rw [State.x, advancePc_K, advancePc_regs_active, read_pc _ _ _ _ rfl]
    exact BitVec.add_sub_cancel _ _
  rw [exec, execDec, finishReg, whenHolds_of_holds rfl, finish, if_neg (by decide), hres]
  exact congrArg Host.Outcome.next (writeReg_pc_advancePc s)

/-- A step of the stuck loop without an interrupt (40_execution_model R139). -/
theorem step_of_stuck {s : State} (hreset : s.lines.reset = false) (hhalted : s.halted = false)
    (htaken : s.takesInterrupt s.lines.irq = false) (hio : s.fetchIsIo (s.regs s.K).pc = false)
    (hword : s.fetchWord (s.regs s.K).pc = 0x0FDF#16) : step s = .next s.consumeInputs := by
  have hdecode : decodeWord 0x0FDF#16 = .dec .al .nf 15 := by decide
  rw [step_of_not_taken hreset hhalted htaken hio, hword, hdecode, exec_dec_pc_advancePc]

/-- Settles O19: in the interrupt context no interrupt is taken, and taking one leaves the normal set. -/
theorem stuckLoop : Obligations.StuckLoop := by
  intro s hreset hhalted hio hword
  refine ⟨fun htaken => step_of_stuck hreset hhalted htaken hio hword,
    fun hK => step_of_stuck hreset hhalted (takesInterrupt_of_K_interrupt hK _) hio hword, fun htaken => ?_⟩
  rw [sampleInterrupt_of_taken htaken]
  exact ⟨enterBySignal_K s, congrArg RegSet.pc (enterBySignal_normal s)⟩

/-! ### A placed word -/

@[simp] theorem placeWord_cfg (s : State) (a v) : (s.placeWord a v).cfg = s.cfg := by
  unfold State.placeWord; split <;> rfl
@[simp] theorem placeWord_K (s : State) (a v) : (s.placeWord a v).K = s.K := by
  unfold State.placeWord; split <;> rfl
@[simp] theorem placeWord_regs (s : State) (a v k) : (s.placeWord a v).regs k = s.regs k := by
  unfold State.placeWord; split <;> cases k <;> rfl
@[simp] theorem placeWord_halted (s : State) (a v) : (s.placeWord a v).halted = s.halted := by
  unfold State.placeWord; split <;> rfl
@[simp] theorem placeWord_lines (s : State) (a v) : (s.placeWord a v).lines = s.lines := by
  unfold State.placeWord; split <;> rfl

/-- A fetch reads the word placed at its address (20_memory R62). -/
theorem fetchWord_placeWord (s : State) (a v : Word) : (s.placeWord a v).fetchWord a = v := by
  cases h : s.cfg.addressSpace <;>
    simp [State.placeWord, State.fetchWord, h, State.dataWord, State.progWord, Memory.read_write]

theorem readyToFetch_regs (s : State) (k) : s.readyToFetch.regs k = s.regs k := by cases k <;> rfl

theorem clearFirstReset_headD (held : Inputs) (inputs : List Inputs) :
    (clearFirstReset held inputs).headD held = (inputs.headD held).withoutReset := by
  cases inputs with
  | nil =>
    obtain ⟨irq, reset⟩ := held
    cases reset <;> rfl
  | cons i rest => rfl

/-- The next sample is as before with its reset line at 0 (log 15). -/
theorem readyToFetch_lines (s : State) : s.readyToFetch.lines = s.lines.withoutReset := clearFirstReset_headD ..

/-- The address fetched from depends on the two sets, K and the level of irq alone (40_execution_model R120). -/
theorem nextFetchAddress_congr {s t : State} (hK : t.K = s.K) (hregs : ∀ k, t.regs k = s.regs k)
    (hirq : t.lines.irq = s.lines.irq) : t.nextFetchAddress = s.nextFetchAddress := by
  have hnormal : t.normal = s.normal := hregs .normal
  have htakes : t.takesInterrupt t.lines.irq = s.takesInterrupt s.lines.irq := by
    simp only [State.takesInterrupt, hK, hnormal, hirq]
  unfold State.nextFetchAddress
  cases htaken : s.takesInterrupt s.lines.irq
  · rw [sampleInterrupt_of_not_taken htaken, sampleInterrupt_of_not_taken (htakes.trans htaken), hK, hregs]
  · have hinterrupt : t.interrupt = s.interrupt := hregs .interrupt
    rw [sampleInterrupt_of_taken htaken, sampleInterrupt_of_taken (htakes.trans htaken)]
    change t.enterBySignal.interrupt.pc = s.enterBySignal.interrupt.pc
    rw [enterBySignal_pc, enterBySignal_pc, hinterrupt]

/-- No device keeps the word at the next address from being fetched (20_memory R62, log 15). -/
theorem readyToFetch_fetchIsIo (s : State) : s.readyToFetch.fetchIsIo s.nextFetchAddress = false := by
  cases h : s.cfg.addressSpace <;> simp [State.fetchIsIo, State.isIo, State.readyToFetch, fetchableRegion, h]

theorem placeWord_fetchIsIo (s : State) (a v b) : (s.placeWord a v).fetchIsIo b = s.fetchIsIo b := by
  simp [State.fetchIsIo, State.isIo]

/-- The word is placed at the address the given state fetches from next (log 15). -/
theorem withFetchWord_eq (s : State) (w : Word) :
    s.withFetchWord 16 w.toNat = s.readyToFetch.placeWord s.nextFetchAddress w := by
  have haddress : s.readyToFetch.nextFetchAddress = s.nextFetchAddress :=
    nextFetchAddress_congr rfl (readyToFetch_regs s) (by rw [readyToFetch_lines]; rfl)
  rw [State.withFetchWord, haddress, Nat.mod_eq_of_lt w.isLt, BitVec.ofNat_toNat, BitVec.setWidth_eq]

/-- Settles O16: the step fetches from the address the word was placed at, and nothing keeps it from doing so. -/
theorem placedWordRunsNext : Obligations.PlacedWordRunsNext := by
  intro s w
  rw [withFetchWord_eq]
  have hK : (s.readyToFetch.placeWord s.nextFetchAddress w).K = s.K := placeWord_K ..
  have hregs : ∀ k, (s.readyToFetch.placeWord s.nextFetchAddress w).regs k = s.regs k := fun k => by
    rw [placeWord_regs, readyToFetch_regs]
  have hlines : (s.readyToFetch.placeWord s.nextFetchAddress w).lines = s.lines.withoutReset := by
    rw [placeWord_lines, readyToFetch_lines]
  have haddress := nextFetchAddress_congr hK hregs (by rw [hlines]; rfl)
  refine ⟨?_, hK, hregs⟩
  rw [step_of_running (by rw [hlines]; rfl) (placeWord_halted ..), haddress, placeWord_fetchIsIo, readyToFetch_fetchIsIo,
    if_neg Bool.false_ne_true, fetchWord_placeWord, hlines, sampleInterrupt_consumeInputs]
  rfl

/-! ### The condition `no` -/

/-- The increment of R15, which no word decodes to, is refused as its reserved row is (log 11). -/
theorem exec_of_not_wellFormed_of_holds {i : Instr} {s : State} (hi : i.wellFormed = false)
    (hcond : condHolds i.cond s.fg = true) : exec i s = .refused .reservedIncrementOfR15 := by
  cases i with
  | inc c f x =>
    obtain rfl : x = 15 := of_not_not (of_decide_eq_false hi)
    exact whenHolds_of_holds hcond _
  | _ => cases hi

theorem exec_of_isOpenDivision_of_refuse {i : Instr} {s : State} (hi : isOpenDivision i s = true)
    (hcond : condHolds i.cond s.fg = true) (hdiv : s.cfg.divZero = .refuse) : exec i s = .refused .divisionRefused := by
  obtain ⟨d, hexec⟩ := exec_of_isOpenDivision hi
  rw [hexec, whenHolds_of_holds hcond, finishOpenDivision, hdiv]

/-- An instruction under `no` that answers a next state is none of the refused ones, so it has made its reads, its draws and
its flag update (40_execution_model R124, R130). -/
theorem exec_next_of_no {i : Instr} {s t : State} (hcond : i.cond = .no) (h : exec i s = .next t) :
    ∃ fl, t = (afterDraw i s).flagLine s.K i.flagUpdate fl := by
  have hholds : condHolds i.cond s.fg = true := by rw [hcond]; rfl
  have hwf : i.wellFormed = true := by
    refine Bool.eq_true_of_not_eq_false fun hi => ?_
    simp [exec_of_not_wellFormed_of_holds hi hholds] at h
  have hres : i.isReserved = false := by
    refine Bool.eq_false_of_not_eq_true fun hi => ?_
    obtain ⟨e, hrefused⟩ := exec_of_isReserved_of_holds hi hholds
    simp [hrefused] at h
  have hdiv : s.cfg.divZero = .draw ∨ isOpenDivision i s = false := by
    cases hd : s.cfg.divZero with
    | draw => exact .inl rfl
    | refuse =>
      refine .inr (Bool.eq_false_of_not_eq_true fun hi => ?_)
      simp [exec_of_isOpenDivision_of_refuse hi hholds hd] at h
  obtain ⟨fl, hexec⟩ := exec_of_no hcond hwf hres hdiv
  exact ⟨fl, Host.Outcome.next.inj (h.symm.trans hexec)⟩

@[simp] theorem afterDraw_cfg (i : Instr) (s : State) : (afterDraw i s).cfg = s.cfg := by rw [afterDraw_frame]
@[simp] theorem afterDraw_K (i : Instr) (s : State) : (afterDraw i s).K = s.K := by rw [afterDraw_frame]
@[simp] theorem afterDraw_halted (i : Instr) (s : State) : (afterDraw i s).halted = s.halted := by rw [afterDraw_frame]
@[simp] theorem afterDraw_dataMem (i : Instr) (s : State) : (afterDraw i s).dataMem = s.dataMem := by rw [afterDraw_frame]
@[simp] theorem afterDraw_progMem (i : Instr) (s : State) : (afterDraw i s).progMem = s.progMem := by rw [afterDraw_frame]
@[simp] theorem afterDraw_regs (i : Instr) (s : State) (k) : (afterDraw i s).regs k = s.regs k := by
  rw [afterDraw_frame]; cases k <;> rfl
@[simp] theorem afterDraw_regOf (i : Instr) (s : State) (k r) : (afterDraw i s).regOf k r = s.regOf k r := by
  rw [State.regOf, afterDraw_regs, afterDraw_cfg, State.regOf]

/-- The upper bits of R14 after a flag update: bits 8 to 14 are kept, and bit 15 is K (10_state R24, R26). -/
theorem FlagsAfter.upper_regOf {s t : State} {k : Context} {cfg f fl}
    (h : FlagsAfter cfg f fl (s.regOf k 14) (t.regOf k 14)) {n : Nat} (hn : 8 ≤ n) :
    (t.regOf k 14).getLsbD n = (s.regOf k 14).getLsbD n := by
  obtain hlt | rfl | hge : n ≤ 14 ∨ n = 15 ∨ 16 ≤ n := by omega
  · exact h.upper n hn hlt
  · rw [readsOfTheFlagRegister.1, readsOfTheFlagRegister.1]
  · rw [BitVec.getLsbD_of_ge _ _ hge, BitVec.getLsbD_of_ge _ _ hge]

/-- Settles O30: what is left of the instruction under `no` is a draw, which no register shows, and the flag update. -/
theorem noConditionWritesNoDestination : Obligations.NoConditionWritesNoDestination := by
  intro i s t hcond h
  obtain ⟨fl, rfl⟩ := exec_next_of_no hcond h
  have hregs := fun r => regs_after_no (afterDraw i s) r i.flagUpdate fl
  have hflags := flags_after_no (afterDraw i s) i.flagUpdate fl
  simp only [afterDraw_K, afterDraw_regOf] at hregs hflags
  refine ⟨hregs, hflags.x, fun n hn => hflags.upper_regOf hn, fun hnf => ?_, fun k hk => ?_, by simp, by simp,
    sameMemory_of_eq (by simp) (by simp), fun hload => ?_, fun hdraw => ?_⟩
  · rw [hnf]
    exact afterDraw_regOf ..
  · rw [flagLine_regs_of_ne _ _ _ hk, afterDraw_regs]
  · rw [flagLine_ioLog, afterDraw_ioLog s hload]
  · rw [afterDraw_of_not_drawsAValue hdraw]
    exact ⟨flagLine_ioLog .., flagLine_draws ..⟩

/-! ### Bits of R14 written with their own value -/

/-- A bit replaced by itself (40_execution_model R126). -/
theorem putBit_getLsbD_self {n : Nat} (v : BitVec n) (i : Nat) : putBit v i (v.getLsbD i) = v := by
  refine BitVec.eq_of_getLsbD_eq fun j _ => ?_
  rw [getLsbD_putBit]
  split
  next h => rw [h.1]
  next => rfl

/-- R14 written with what it reads stores what it stored, under either ALG_MODE (40_execution_model R127, R134; log 13). -/
theorem writeFlags_read (cfg : Config) (k : Context) (r : RegSet) : writeFlags cfg r.fg (r.read cfg k 14) = r.fg := by
  refine BitVec.eq_of_getLsbD_eq fun n hn => ?_
  by_cases halg : n < 5 ∨ 7 < n
  · rw [getLsbD_writeFlags_of_not_alg _ _ _ hn halg, getLsbD_read_fg _ _ _ hn, getLsbD_readFlags_of_not_alg _ _ halg]
  · cases hm : cfg.algMode with
    | stored => rw [getLsbD_writeFlags_stored _ _ _ hm hn, getLsbD_read_fg _ _ _ hn, readFlags, hm]
    | live =>
      obtain rfl | rfl | rfl : n = 5 ∨ n = 6 ∨ n = 7 := by omega
      all_goals simp only [writeFlags, hm, getLsbD_putBit, FG.A, FG.L, FG.G]; rfl

/-- R14 written with its own value is as before (40_execution_model R126, R127). -/
theorem writeReg_fg_self (s : State) : s.writeReg 14 (s.x 14) = s := by
  have hwrite : (s.regs s.K).write s.cfg 14 (s.x 14) = s.regs s.K := by
    rw [RegSet.write, dif_neg (by decide), if_pos (by decide), State.x, writeFlags_read]
  rw [State.writeReg, hwrite, setRegs_self]

/-- A bit of R14 written with its own value and without a flag update changes nothing, K included (40_execution_model R126,
R127). -/
theorem finishBit_fg_self (c : Cond) (b : BitNo) (s : State) :
    finishBit c .nf 14 b ((s.x 14).getLsbD b.val) .none s = .next s := by
  have hrequest : s.requested (.reg 14 (s.x 14)) = none := if_neg fun h => h.2 (msb_read_fg _ _ _)
  have hfinish : finish c .nf (.reg 14 (s.x 14)) (bitFlags ((s.x 14).getLsbD b.val)) .none s = .next s := by
    rw [finish, hrequest, State.writeBack, writeReg_fg_self]
    exact ite_self _
  rw [finishBit, putBit_getLsbD_self, hfinish, whenHolds, ite_self]

/-- Settles O44: bit 15 of R14 is K. -/
theorem rewritingKDoesNothing : Obligations.RewritingKDoesNothing := by
  have hself : ∀ (c : Cond) (s : State) (k : Context), s.K = k → finishBit c .nf 14 15 k.bit .none s = .next s := by
    rintro c s _ rfl
    rw [← readsOfTheFlagRegister.1 s s.K]
    exact finishBit_fg_self c 15 s
  exact ⟨fun c s hK => hself c s .interrupt hK, fun c s hK => hself c s .normal hK⟩

/-! ### The flags after a compare -/

theorem subCarry_eq_borrowOf (cfg : Config) (a b : Word) : subCarry cfg a b = borrowOf cfg a b := by
  unfold subCarry borrowOf
  cases cfg.subC <;> rfl

/-- C and not Z after a subtraction (10_state R35, 40_execution_model R133). -/
theorem borrowOf_and_ne (cfg : Config) (a b : Word) :
    (borrowOf cfg a b && !decide (a = b)) =
      if cfg.subC = .borrow then decide (a.toNat < b.toNat) else decide (b.toNat < a.toNat) := by
  unfold borrowOf
  split <;> rw [Bool.eq_iff_iff] <;>
    simp only [Bool.and_eq_true, Bool.not_eq_true', decide_eq_true_eq, decide_eq_false_iff_not, ← BitVec.toNat_inj] <;>
    omega

/-- S xor V after a subtraction is the signed comparison (10_state R36, 40_execution_model R133). -/
theorem msb_sub_xor_signedOverflow (a b : Word) :
    ((a - b).msb ^^ signedOverflow (a.toInt - b.toInt)) = decide (a.toInt < b.toInt) := by
  have ha := a.toInt_lt
  have ha' := a.le_toInt
  have hb := b.toInt_lt
  have hb' := b.le_toInt
  rw [BitVec.msb_eq_toInt, BitVec.toInt_sub, signedOverflow, Bool.eq_iff_iff, Bool.xor_iff_ne, ne_eq, decide_eq_decide,
    decide_eq_true_iff, Int.bmod_def]
  omega

/-- Not Z and S = V after a subtraction is the signed comparison the other way (10_state R37, 40_execution_model R133). -/
theorem ne_and_msb_sub_eq_signedOverflow (a b : Word) :
    (!decide (a = b) && ((a - b).msb == signedOverflow (a.toInt - b.toInt))) = decide (b.toInt < a.toInt) := by
  have hsame : (a - b).msb = signedOverflow (a.toInt - b.toInt) ↔ ¬a.toInt < b.toInt := by
    rw [← decide_eq_true_iff (p := a.toInt < b.toInt), ← msb_sub_xor_signedOverflow, Bool.xor_iff_ne, not_not]
  rw [Bool.eq_iff_iff]
  simp only [Bool.and_eq_true, Bool.not_eq_true', beq_iff_eq, hsame, decide_eq_true_eq, decide_eq_false_iff_not,
    ← BitVec.toInt_inj]
  omega

/-- Settles O50: Z, C, S and V are those of the difference, and A, L and G follow them under either ALG_MODE. -/
theorem flagsAfterACompare : Obligations.FlagsAfterACompare := by
  intro c x y s hcond
  obtain ⟨t, hexec, hres, -⟩ := finishReg_spec c .fl (low x) (subWords s.cfg (s.x (low x)) (s.x (low y))) s hcond
  refine ⟨t, hexec, ?_⟩
  have hlow : ¬((low x).val = 14 ∧ c ≠ .no) := fun h => absurd (h.1 ▸ x.isLt : 14 < 8) (by decide)
  have hK : t.K = s.K := hres.context.trans (if_neg hlow)
  have hread : t.x 14 = t.regOf s.K 14 := by rw [← hK]; rfl
  have hflags := hres.flags
  rw [← hread] at hflags
  have hz : (t.x 14).getLsbD 1 = decide (s.x (low x) = s.x (low y)) := hflags.z.trans (decide_eq_decide.mpr sub_eq_zero)
  have hc : (t.x 14).getLsbD 0 = borrowOf s.cfg (s.x (low x)) (s.x (low y)) :=
    hflags.c.trans (subCarry_eq_borrowOf ..)
  refine ⟨hz, hc, ?_, ?_, ?_⟩
  · rw [hflags.algA (.inl rfl), hc, hz, borrowOf_and_ne]
  · rw [hflags.algL (.inl rfl), hflags.s, hflags.v]
    exact msb_sub_xor_signedOverflow ..
  · rw [hflags.algG (.inl rfl), hz, hflags.s, hflags.v]
    exact ne_and_msb_sub_eq_signedOverflow ..

end Sys2Proof.Machine

namespace Sys2Proof.Machine

/-! ### `mov` between registers and memory -/

/-- Settles O34: the move is a plain register result. -/
theorem movRegResult : Obligations.MovRegResult := by
  intro c f x y s hcond
  exact ⟨encodeRR4_word .., finishReg_spec c f x (plainResult (s.x y)) s hcond⟩

theorem Prepared.inputs {s u : State} (h : Prepared s u) : u.inputs = s.inputs := by cases h <;> simp
theorem Prepared.held {s u : State} (h : Prepared s u) : u.held = s.held := by cases h <;> simp
theorem Prepared.regOf {s u : State} (h : Prepared s u) (k : Context) (i : Reg) : u.regOf k i = s.regOf k i := by
  rw [State.regOf, h.regs, h.cfg, State.regOf]

/-- A register result speaks of no device record and no count of draws, so it may be told from before the read or draw. -/
theorem RegResult.of_prepared {c f d r halts} {s u t : State} (hu : Prepared s u) (h : RegResult c f d r halts u t) :
    RegResult c f d r halts s t := by
  have hmem : SameMemory s u := sameMemory_of_eq hu.dataMem hu.progMem
  obtain ⟨regs, flags, context, ⟨gpr, pc, fg⟩, halted, ⟨data, prog⟩, cfg, inputs, held⟩ := h
  simp only [hu.K, hu.cfg, hu.regs, hu.regOf, hu.halted, hu.inputs, hu.held, hmem.data, hmem.prog]
    at regs flags context gpr pc fg halted data prog cfg inputs held
  exact ⟨regs, flags, context, ⟨gpr, pc, fg⟩, halted, ⟨data, prog⟩, cfg, inputs, held⟩

/-- What an executing load does: the loaded value is a register result, and the only device access and draw are the read's
(20_memory R63, 41_mov_register_memory R161). -/
theorem exec_load_spec (c : Cond) (f : FlagUpdate) (x y : Reg) (s : State) (hcond : condHolds c s.fg = true) :
    ∃ t, exec (.load c f x y) s = .next t ∧ RegResult c f x (wordResult (s.loadValue (s.x y)) none none) false s t ∧
      NoDeviceNoDraw (s.afterLoad (s.x y)) t := by
  obtain ⟨t, hfinish, hres, hio⟩ :=
    finish_reg_spec c f x (wordResult (s.loadValue (s.x y)) none none) (s.afterLoad (s.x y))
  exact ⟨t, (whenHolds_of_holds hcond _).trans hfinish, hres.of_prepared (.loaded _), hio⟩

theorem loadValue_of_plain {s : State} {a : Word} (h : s.isIo a = false) : s.loadValue a = s.dataWord a :=
  if_neg (ne_true_of_eq_false h)

theorem loadValue_of_device {s : State} {a : Word} (h : s.isIo a = true) : s.loadValue a = Config.drawWord s.draws :=
  if_pos h

theorem afterLoad_of_plain {s : State} {a : Word} (h : s.isIo a = false) : s.afterLoad a = s :=
  if_neg (ne_true_of_eq_false h)

theorem afterLoad_of_device {s : State} {a : Word} (h : s.isIo a = true) :
    s.afterLoad a = { s with draws := s.draws + 1, ioLog := s.ioLog ++ [.read a (Config.drawWord s.draws)] } :=
  if_pos h

/-- Settles O35: plain memory gives its word and leaves no trace, a device gives the draw it records. -/
theorem loadResult : Obligations.LoadResult := by
  intro c f x y s hcond
  obtain ⟨t, hexec, hres, hio⟩ := exec_load_spec c f x y s hcond
  refine ⟨encodeRR4_word .., fun hplain => ?_, fun hdevice => ?_⟩
  · rw [loadValue_of_plain hplain] at hres
    rw [afterLoad_of_plain hplain] at hio
    exact ⟨t, hexec, hres, hio⟩
  · rw [loadValue_of_device hdevice] at hres
    rw [afterLoad_of_device hdevice] at hio
    exact ⟨t, _, hexec, rfl, hres, hio.ioLog, hio.draws⟩

theorem dataWord_congr {s t : State} (h : t.dataMem = s.dataMem) (a : Word) : t.dataWord a = s.dataWord a := by
  rw [State.dataWord, h, State.dataWord]

theorem storeWord_ioLog_of_plain {s : State} {a : Word} (h : s.isIo a = false) (v : Word) :
    (s.storeWord a v).ioLog = s.ioLog := by
  simp [State.storeWord, h]

theorem storeWord_ioLog_of_device {s : State} {a : Word} (h : s.isIo a = true) (v : Word) :
    (s.storeWord a v).ioLog = s.ioLog ++ [.write a v] := by
  simp [State.storeWord, h]

/-- A fetch after a store sees data memory where there is one space, and what it saw before where there are two
(20_memory R60, R75). -/
theorem FlagsOnly.fetchWord {f fl} {s t : State} (h : FlagsOnly f fl s t) (a : Word) :
    t.fetchWord a = if s.cfg.addressSpace = .unified then t.dataWord a else s.fetchWord a := by
  unfold State.fetchWord
  rw [h.cfg]
  cases s.cfg.addressSpace with
  | unified => rfl
  | split => exact h.prog a

/-- Settles O36: under `no` the flag update is all; otherwise the store is the one write, to memory or to a device. -/
theorem storeResult : Obligations.StoreResult := by
  intro c f x y s hcond
  have hexec : exec (.store c f x y) s = finish c f (.mem (s.x x) (s.x y)) (wordFlags (s.x y) none none) .none s :=
    whenHolds_of_holds hcond _
  rw [hexec]
  refine ⟨encodeRR4_word .., ?_⟩
  by_cases hno : c = .no
  · subst hno
    obtain ⟨t, hfinish, hflags, hmem, hio⟩ := finish_mem_no_spec f (s.x x) (s.x y) (wordFlags (s.x y) none none) s
    exact ⟨t, hfinish, hflags, fun _ => ⟨dataWord_congr hmem, hio⟩, fun h => absurd rfl h, fun h => absurd rfl h⟩
  · obtain ⟨t, hfinish, hflags, hmem, hio⟩ := finish_mem_spec c hno f (s.x x) (s.x y) (wordFlags (s.x y) none none) s
    have hdata (a : Word) : t.dataWord a = if s.isIo (s.x x) = false ∧ a = s.x x then s.x y else s.dataWord a :=
      (dataWord_congr hmem a).trans (dataWord_storeWord ..)
    refine ⟨t, hfinish, hflags, fun h => absurd h hno, fun _ hplain => ?_, fun _ hdevice => ?_⟩
    · have hword (a : Word) : t.dataWord a = if a = s.x x then s.x y else s.dataWord a := by simp [hdata, hplain]
      refine ⟨hword, fun a => ?_, hio.trans (storeWord_ioLog_of_plain hplain _)⟩
      rw [hflags.fetchWord, hword]
      cases hspace : s.cfg.addressSpace with
      | unified => simp [State.fetchWord, hspace]
      | split => simp
    · exact ⟨fun a => by simp [hdata, hdevice], hio.trans (storeWord_ioLog_of_device hdevice _)⟩

end Sys2Proof.Machine

namespace Sys2Proof.Machine

/-! ### The bit instructions -/

theorem exec_movXBit_of_holds {c : Cond} {s : State} (h : condHolds c s.fg = true) (f : FlagUpdate) (x : Reg) (b : BitNo) :
    exec (.movXBit c f x b) s = finish c f (.flagX (s.xBit x b)) (bitFlags (s.xBit x b)) .none s :=
  whenHolds_of_holds h _

/-- Settles O37: X is the destination, the bit is read before it is written. -/
theorem movXBitResult : Obligations.MovXBitResult := by
  intro c f x b s hcond
  rw [exec_movXBit_of_holds hcond]
  exact ⟨encodeRR4_word .., finish_flagX_spec c f (s.xBit x b) (bitFlags (s.xBit x b)) s⟩

theorem isBitReplaced_putBit (old : Word) (b : BitNo) (v : Bool) : IsBitReplaced (putBit old b.val v) old b v := by
  intro n _
  simp [getLsbD_putBit]

/-- `no` discards the reaction with the destination (40_execution_model R124). -/
theorem finishBit_no (f : FlagUpdate) (x : Reg) (b : BitNo) (v : Bool) (r : Reaction) (s : State) :
    finishBit .no f x b v r s = finishBit .no f x b v .none s := rfl

/-- An executing bit write completes as such where its reaction is none or discarded: the register with that one bit
replaced is a register result (40_execution_model R126, R131). -/
theorem finishBit_replaces {c : Cond} {x : Reg} {b : BitNo} {v : Bool} {r : Reaction} {s : State}
    (hcond : condHolds c s.fg = true) (hquiet : r = .none ∨ c = .no) (f : FlagUpdate) :
    ∃ t res, finishBit c f x b v r s = .next t ∧ IsBitReplaced res (s.x x) b v ∧
      RegResult c f x (bitResult res v) false s t ∧ NoDeviceNoDraw s t := by
  have hnone : finishBit c f x b v r s = finishBit c f x b v .none s := by
    rcases hquiet with rfl | rfl
    · rfl
    · exact finishBit_no f x b v r s
  obtain ⟨t, hfinish, hres, hio⟩ := finishBit_spec c f x b v s hcond
  exact ⟨t, _, hnone.trans hfinish, isBitReplaced_putBit _ b v, hres, hio⟩

/-- A move to a bit that asks for no reaction has none, or `no` discards it (60_exceptions R275, R276). -/
theorem moveReaction_quiet {i : Instr} {s : State} {x : Reg} {b : BitNo} {v : Bool}
    (hmoves : x = 14 → v = true → i.cond ≠ .no → movesOneToFG b i s = true)
    (hsoft : asksSoftReset i s = false) (hhalt : asksHalt i s = false) :
    moveReaction x b v = .none ∨ i.cond = .no := by
  by_contra! ⟨hreact, hno⟩
  cases hr : moveReaction x b v with
  | none => exact hreact hr
  | softReset =>
    obtain ⟨hx, rfl, hv⟩ := moveReaction_softReset hr
    exact ne_true_of_eq_false hsoft (hmoves hx hv hno)
  | halt =>
    obtain ⟨hx, rfl, hv⟩ := moveReaction_halt hr
    exact ne_true_of_eq_false hhalt (hmoves hx hv hno)

/-- Settles O38: where nothing reacts, a move to a bit replaces that bit by X or by 1. -/
theorem writeBitResult : Obligations.WriteBitResult := by
  intro c f x b s hcond
  refine ⟨⟨encodeRR4_word .., fun hsoft hhalt => ?_⟩, ⟨encodeRR4_word .., fun hsoft hhalt => ?_⟩⟩
  · exact finishBit_replaces hcond (moveReaction_quiet
      (by rintro rfl hX (hno : c ≠ .no); simp [movesOneToFG, hcond, hno, hX]) hsoft hhalt) f
  · exact finishBit_replaces hcond (moveReaction_quiet
      (by rintro rfl - (hno : c ≠ .no); simp [movesOneToFG, hcond, hno]) hsoft hhalt) f

/-- Settles O39: neither instruction has a reaction, so each replaces its bit, in R14 and R15 as elsewhere. -/
theorem clearAndNotBitResult : Obligations.ClearAndNotBitResult := by
  intro c f x b s hcond
  exact ⟨⟨encodeRR4_word .., finishBit_replaces hcond (.inl rfl) f⟩,
    ⟨encodeRR4_word .., finishBit_replaces hcond (.inl rfl) f⟩⟩

end Sys2Proof.Machine

namespace Sys2Proof.Machine

/-! ### The byte immediates -/

/-- A word made of two bytes, by arithmetic (30_encoding R96). -/
theorem append_bytes_eq_ofNat (hi lo : Byte) : (hi ++ lo : Word) = BitVec.ofNat 16 (hi.toNat * 256 + lo.toNat) := by
  have hword : (hi ++ lo : Word).toNat = hi.toNat * 256 + lo.toNat := by
    rw [BitVec.toNat_append, ← Nat.shiftLeft_add_eq_or_of_lt lo.isLt, Nat.shiftLeft_eq]
  rw [← hword, BitVec.ofNat_toNat, BitVec.setWidth_eq]

theorem putLowByte_eq_ofNat (r : Word) (imm : Byte) :
    putLowByte r imm = BitVec.ofNat 16 (r.toNat / 256 * 256 + imm.toNat) := by
  have hhigh : (r.extractLsb' 8 8).toNat = r.toNat / 256 := by
    rw [BitVec.extractLsb'_toNat, Nat.shiftRight_eq_div_pow]
    omega
  rw [putLowByte, append_bytes_eq_ofNat, hhigh]

theorem putHighByte_eq_ofNat (r : Word) (imm : Byte) :
    putHighByte r imm = BitVec.ofNat 16 (imm.toNat * 256 + r.toNat % 256) := by
  rw [putHighByte, append_bytes_eq_ofNat, BitVec.extractLsb'_toNat, Nat.shiftRight_zero]

/-- Settles O45: each is a plain register result in R0, whose bytes are told by arithmetic. -/
theorem movByteResult : Obligations.MovByteResult := by
  intro c f imm s hcond
  rw [← putLowByte_eq_ofNat, ← putHighByte_eq_ofNat]
  exact ⟨⟨encodeB8_word .., finishReg_spec c f 0 (plainResult (putLowByte (s.x 0) imm)) s hcond⟩,
    ⟨encodeB8_word .., finishReg_spec c f 0 (plainResult (putHighByte (s.x 0) imm)) s hcond⟩⟩

/-! ### The relative branch -/

theorem toInt_sext8 (b : Byte) : (sext8 b).toInt = b.toInt := BitVec.toInt_signExtend_of_le (by decide)

theorem add_sext8_eq_ofInt (a : Word) (b : Byte) : a + sext8 b = BitVec.ofInt 16 (a.toNat + b.toInt) := by
  rw [BitVec.ofInt_add, BitVec.ofInt_natCast, BitVec.ofNat_toNat, BitVec.setWidth_eq, sext8, BitVec.signExtend]

/-- The 16-bit addition of a signed byte, by arithmetic on the byte (40_execution_model R132, 43_immediate_byte R192). -/
theorem addWords_sext8 (a : Word) (b : Byte) :
    addWords a (sext8 b) = wordResult (BitVec.ofInt 16 (a.toNat + b.toInt))
      (some (decide (65536 ≤ a.toNat + (BitVec.ofInt 16 b.toInt).toNat)))
      (some (decide (a.toInt + b.toInt < -32768 ∨ 32767 < a.toInt + b.toInt))) := by
  rw [addWords, toInt_sext8, add_sext8_eq_ofInt, signedOverflow, wordFlags, sext8, BitVec.signExtend, wordResult]

/-- Settles O46: the branch is a plain register result in R15. -/
theorem addPcResult : Obligations.AddPcResult := by
  intro c f simm s hcond
  rw [← addWords_sext8]
  exact ⟨encodeB8_word .., finishReg_spec c f 15 (addWords (s.x 15) (sext8 simm)) s hcond⟩

end Sys2Proof.Machine

namespace Sys2Proof.Machine

/-! ### Two-register arithmetic -/

/-- The 16-bit addition, by arithmetic on the unsigned and the signed readings (40_execution_model R132). -/
theorem addWords_eq_wordResult (a b : Word) :
    addWords a b = wordResult (BitVec.ofNat 16 (a.toNat + b.toNat)) (some (decide (65536 ≤ a.toNat + b.toNat)))
      (some (decide (a.toInt + b.toInt < -32768 ∨ 32767 < a.toInt + b.toInt))) := by
  rw [addWords, BitVec.add_def, signedOverflow, wordFlags, wordResult]

/-- Settles O47: the addition is a plain register result. -/
theorem addRegResult : Obligations.AddRegResult := by
  intro c f x y s hcond
  rw [← addWords_eq_wordResult]
  exact ⟨encodeRR3_word .., finishReg_spec c f (low x) (addWords (s.x (low x)) (s.x (low y))) s hcond⟩

theorem sub_eq_ofInt (a b : Word) : a - b = BitVec.ofInt 16 (a.toNat - b.toNat : Int) := by
  simp only [BitVec.sub_eq_add_neg, Int.sub_eq_add_neg, BitVec.ofInt_add, BitVec.ofInt_neg, BitVec.ofInt_natCast,
    BitVec.ofNat_toNat, BitVec.setWidth_eq]

/-- The 16-bit subtraction, by arithmetic on the unsigned and the signed readings (40_execution_model R132). -/
theorem subWords_eq_wordResult (cfg : Config) (a b : Word) :
    subWords cfg a b = wordResult (BitVec.ofInt 16 (a.toNat - b.toNat : Int)) (some (borrowOf cfg a b))
      (some (decide (a.toInt - b.toInt < -32768 ∨ 32767 < a.toInt - b.toInt))) := by
  rw [subWords, sub_eq_ofInt, subCarry_eq_borrowOf, signedOverflow, wordFlags, wordResult]

/-- Settles O48: the subtraction is a plain register result. -/
theorem subRegResult : Obligations.SubRegResult := by
  intro c f x y s hcond
  rw [← subWords_eq_wordResult]
  exact ⟨encodeRR3_word .., finishReg_spec c f (low x) (subWords s.cfg (s.x (low x)) (s.x (low y))) s hcond⟩

/-! ### Two-register logic -/

/-- An executing instruction that ends with a plain result completes with the result told bit by bit. -/
theorem finishReg_plainResult_of_bits {c : Cond} {s : State} (hcond : condHolds c s.fg = true) (f : FlagUpdate) (d : Reg)
    {res : Word} {bit : Nat → Bool} (hbits : ∀ n, res.getLsbD n = bit n) :
    ∃ t res', finishReg c f d (plainResult res) s = .next t ∧ (∀ n, n < 16 → res'.getLsbD n = bit n) ∧
      RegResult c f d (wordResult res' none none) false s t ∧ NoDeviceNoDraw s t := by
  obtain ⟨t, hfinish, hres, hio⟩ := finishReg_spec c f d (plainResult res) s hcond
  exact ⟨t, res, hfinish, fun n _ => hbits n, hres, hio⟩

/-- Settles O49: each operation is a plain register result whose bits are those of the two registers combined. -/
theorem logicResult : Obligations.LogicResult := by
  intro c f x y s hcond
  exact ⟨⟨encodeRR3_word .., finishReg_plainResult_of_bits hcond f (low x) fun _ => BitVec.getLsbD_and⟩,
    ⟨encodeRR3_word .., finishReg_plainResult_of_bits hcond f (low x) fun _ => BitVec.getLsbD_or⟩,
    ⟨encodeRR3_word .., finishReg_plainResult_of_bits hcond f (low x) fun _ => BitVec.getLsbD_xor⟩⟩

end Sys2Proof.Machine

namespace Sys2Proof.Machine

/-! ### Shifts -/

/-- `Shl(a, n)` for every count, by arithmetic on the unsigned reading (45_shifts R210). -/
theorem shlWord_eq_wordResultOf (a : Word) (n : Nat) :
    shlWord a n = wordResultOf (BitVec.ofNat 16 (a.toNat * 2 ^ n))
      (if 1 ≤ n ∧ n ≤ 16 then a.getLsbD (16 - n) else false) := by
  have hres : a <<< n = BitVec.ofNat 16 (a.toNat * 2 ^ n) := by
    apply BitVec.eq_of_toNat_eq
    rw [BitVec.toNat_shiftLeft, Nat.shiftLeft_eq, BitVec.toNat_ofNat]
  rw [shlWord, hres, shlCarry, wordFlags, wordResultOf, wordResult]

/-- `Shr(a, n)` for every count, by arithmetic on the unsigned reading (45_shifts R210). -/
theorem shrWord_eq_wordResultOf (a : Word) (n : Nat) :
    shrWord a n = wordResultOf (BitVec.ofNat 16 (a.toNat / 2 ^ n))
      (if 1 ≤ n ∧ n ≤ 16 then a.getLsbD (n - 1) else false) := by
  have hres : a >>> n = BitVec.ofNat 16 (a.toNat / 2 ^ n) := by
    rw [← Nat.shiftRight_eq_div_pow, ← BitVec.toNat_ushiftRight, BitVec.ofNat_toNat, BitVec.setWidth_eq]
  rw [shrWord, hres, shrCarry, wordFlags, wordResultOf, wordResult]

/-- `Sar(a, n)` for every count, by arithmetic on the signed reading (45_shifts R210). -/
theorem sarWord_eq_wordResultOf (a : Word) (n : Nat) :
    sarWord a n = wordResultOf (BitVec.ofInt 16 (a.toInt / 2 ^ n))
      (if n = 0 then false else if n ≤ 16 then a.getLsbD (n - 1) else a.msb) := by
  have hres : a.sshiftRight n = BitVec.ofInt 16 (a.toInt / 2 ^ n) := by
    rw [BitVec.sshiftRight, Int.shiftRight_eq_div_pow, Nat.cast_pow, Nat.cast_ofNat]
  rw [sarWord, hres, sarCarry, wordFlags, wordResultOf, wordResult]

/-- The count of a register shift under either SHIFT_AMOUNT (45_shifts R210). -/
theorem regCount_eq (cfg : Config) (y : Word) :
    regCount cfg y = if cfg.shiftAmount = .full then y.toNat else y.toNat % 16 := by
  rw [regCount]
  cases cfg.shiftAmount <;> rfl

/-- Settles O51: each shift is a plain register result, by the count that SHIFT_AMOUNT takes from Ry. -/
theorem shiftByRegisterResult : Obligations.ShiftByRegisterResult := by
  intro c f x y s n hcond hn
  rw [← regCount_eq] at hn
  subst hn
  rw [← shlWord_eq_wordResultOf, ← shrWord_eq_wordResultOf, ← sarWord_eq_wordResultOf]
  exact ⟨⟨encodeRR3_word .., finishReg_spec c f (low x) (shlWord ..) s hcond⟩,
    ⟨encodeRR3_word .., finishReg_spec c f (low x) (shrWord ..) s hcond⟩,
    ⟨encodeRR3_word .., finishReg_spec c f (low x) (sarWord ..) s hcond⟩⟩

/-- An immediate count is 1 to 8, so a left shift by it moves a bit of the word out last (30_encoding R96, 45_shifts R214). -/
theorem shlWord_immCount (a : Word) (i : Fin 8) :
    shlWord a (immCount i) =
      wordResultOf (BitVec.ofNat 16 (a.toNat * 2 ^ (i.val + 1))) (a.getLsbD (16 - (i.val + 1))) := by
  rw [immCount, shlWord_eq_wordResultOf, if_pos (by omega)]

/-- As `shlWord_immCount`, to the right without the sign (45_shifts R215). -/
theorem shrWord_immCount (a : Word) (i : Fin 8) :
    shrWord a (immCount i) = wordResultOf (BitVec.ofNat 16 (a.toNat / 2 ^ (i.val + 1))) (a.getLsbD i.val) := by
  rw [immCount, shrWord_eq_wordResultOf, if_pos (by omega), Nat.add_sub_cancel]

/-- As `shlWord_immCount`, to the right with the sign (45_shifts R216). -/
theorem sarWord_immCount (a : Word) (i : Fin 8) :
    sarWord a (immCount i) = wordResultOf (BitVec.ofInt 16 (a.toInt / 2 ^ (i.val + 1))) (a.getLsbD i.val) := by
  rw [immCount, sarWord_eq_wordResultOf, if_neg (by omega), if_pos (by omega), Nat.add_sub_cancel]

/-- Settles O52: each shift is a plain register result, by the field plus one. -/
theorem shiftByImmediateResult : Obligations.ShiftByImmediateResult := by
  intro c f x i s hcond
  rw [← shlWord_immCount, ← shrWord_immCount, ← sarWord_immCount]
  exact ⟨⟨encodeRR3_word .., finishReg_spec c f (low x) (shlWord ..) s hcond⟩,
    ⟨encodeRR3_word .., finishReg_spec c f (low x) (shrWord ..) s hcond⟩,
    ⟨encodeRR3_word .., finishReg_spec c f (low x) (sarWord ..) s hcond⟩⟩

end Sys2Proof.Machine

namespace Sys2Proof.Machine

/-! ### Multiply and divide -/

/-- The signed product has the low word of the unsigned one: two readings of a word differ by a multiple of 65536, so both
products are the word product (46_multiply_divide R221). -/
theorem imulWords_eq_mulWords (a b : Word) : imulWords a b = mulWords a b := by
  simp only [imulWords, mulWords, BitVec.ofInt_mul, BitVec.ofInt_toInt, BitVec.ofNat_mul, BitVec.ofNat_toNat,
    BitVec.setWidth_eq]

/-- Settles O53: each product is a plain register result, and the two results are the same word. -/
theorem multiplyResult : Obligations.MultiplyResult := by
  intro c f x y s hcond
  refine ⟨⟨encodeRR3_word .., ?mul⟩, ⟨encodeRR3_word .., ?imul⟩, ?agree⟩
  case mul => exact finishReg_spec c f (low x) (plainResult (mulWords (s.x (low x)) (s.x (low y)))) s hcond
  case imul => exact finishReg_spec c f (low x) (plainResult (imulWords (s.x (low x)) (s.x (low y)))) s hcond
  case agree => rw [exec, exec, execImulReg, execMulReg, imulWords_eq_mulWords]

/-- Where the spec gives the unsigned quotient, it is a plain register result (46_multiply_divide R222). -/
theorem exec_divReg_of_not_isOpenDivision {c f x y} {s : State} (h : isOpenDivision (.divReg c f x y) s = false) :
    exec (.divReg c f x y) s = finishReg c f (low x) (plainResult (divWords (s.x (low x)) (s.x (low y)))) s :=
  if_neg (of_decide_eq_false h)

/-- Where the spec gives the signed quotient, it is a plain register result (46_multiply_divide R223). -/
theorem exec_idivReg_of_not_isOpenDivision {c f x y} {s : State} (h : isOpenDivision (.idivReg c f x y) s = false) :
    exec (.idivReg c f x y) s = finishReg c f (low x) (plainResult (idivWords (s.x (low x)) (s.x (low y)))) s :=
  if_neg fun hopen => ne_true_of_eq_false h ((isOpenDivision_idivReg c f x y s).mpr hopen)

/-- Settles O54: a division that is not open is a plain register result. -/
theorem divideResult : Obligations.DivideResult := by
  intro c f x y s hcond
  refine ⟨⟨encodeRR3_word .., fun hgiven => ?div⟩, ⟨encodeRR3_word .., fun hgiven => ?idiv⟩⟩
  case div =>
    rw [exec_divReg_of_not_isOpenDivision hgiven]
    exact finishReg_spec c f (low x) (plainResult (divWords (s.x (low x)) (s.x (low y)))) s hcond
  case idiv =>
    rw [exec_idivReg_of_not_isOpenDivision hgiven]
    exact finishReg_spec c f (low x) (plainResult (idivWords (s.x (low x)) (s.x (low y)))) s hcond

/-- An open division, of either kind, ends as such with Rx as its destination (46_multiply_divide R224). -/
theorem exec_division_of_isOpenDivision {c f x y} {i : Instr} {s : State} (hi : i = .divReg c f x y ∨ i = .idivReg c f x y)
    (hopen : isOpenDivision i s = true) : exec i s = whenHolds c s (finishOpenDivision c f (low x) s) := by
  rcases hi with rfl | rfl
  · exact if_pos (of_decide_eq_true hopen)
  · exact if_pos ((isOpenDivision_idivReg c f x y s).mp hopen)

/-- Under DIV_ZERO = draw an open division is a register result drawn from the free values, and it draws once
(46_multiply_divide R224, log 6). -/
theorem finishOpenDivision_draw_spec (c : Cond) (f : FlagUpdate) (d : Reg) {s : State} (hdraw : s.cfg.divZero = .draw) :
    ∃ t, finishOpenDivision c f d s = .next t ∧
      RegResult c f d ⟨Config.drawWord s.draws, drawnFlags s.draws⟩ false s t ∧
      NoDeviceNoDraw { s with draws := s.draws + 1 } t := by
  obtain ⟨t, hfinish, hres, hio⟩ :=
    finish_reg_spec c f d ⟨Config.drawWord s.draws, drawnFlags s.draws⟩ { s with draws := s.draws + 1 }
  refine ⟨t, ?_, hres.of_prepared .drew, hio⟩
  rw [finishOpenDivision, hdraw]
  exact hfinish

/-- Settles O55: an open division ends by DIV_ZERO, with one draw or refused. -/
theorem openDivision : Obligations.OpenDivision := by
  intro c f x y i s hi hcond hopen
  refine ⟨fun hdraw => ?_, exec_of_isOpenDivision_of_refuse hopen (by rcases hi with rfl | rfl <;> exact hcond)⟩
  obtain ⟨t, hfinish, hres, ⟨hlog, hdraws⟩⟩ := finishOpenDivision_draw_spec c f (low x) hdraw
  rw [exec_division_of_isOpenDivision hi hopen, whenHolds_of_holds hcond]
  exact ⟨t, hfinish, hres, hdraws, hlog⟩

end Sys2Proof.Machine

namespace Sys2Proof.Machine

/-! ### Single-register instructions -/

/-- The addition of 1 carries out of 65535 alone and overflows at 32767 alone (40_execution_model R132, 47_single_register
R230). -/
theorem addWords_one (a : Word) :
    addWords a 1#16 = wordResult (BitVec.ofNat 16 (a.toNat + 1)) (some (decide (a = 0xFFFF#16)))
      (some (decide (a = 0x7FFF#16))) := by
  have hcarry : 65536 ≤ a.toNat + (1#16).toNat ↔ a = 0xFFFF#16 := by
    rw [← BitVec.toNat_inj, BitVec.toNat_ofNat, BitVec.toNat_ofNat]
    omega
  have hoverflow : (a.toInt + (1#16).toInt < -32768 ∨ 32767 < a.toInt + (1#16).toInt) ↔ a = 0x7FFF#16 := by
    have hlow := a.le_toInt
    have hhigh := a.toInt_lt
    rw [← BitVec.toInt_inj]
    change a.toInt + 1 < -32768 ∨ 32767 < a.toInt + 1 ↔ a.toInt = 32767
    omega
  rw [addWords_eq_wordResult, decide_eq_decide.mpr hcarry, decide_eq_decide.mpr hoverflow]
  rfl

/-- The subtraction of 1 overflows at -32768 alone (40_execution_model R132, 47_single_register R231). -/
theorem subWords_one (cfg : Config) (a : Word) :
    subWords cfg a 1#16 = wordResult (BitVec.ofInt 16 (a.toNat - 1 : Int)) (some (borrowOf cfg a 1#16))
      (some (decide (a = 0x8000#16))) := by
  have hoverflow : (a.toInt - (1#16).toInt < -32768 ∨ 32767 < a.toInt - (1#16).toInt) ↔ a = 0x8000#16 := by
    have hlow := a.le_toInt
    have hhigh := a.toInt_lt
    rw [← BitVec.toInt_inj]
    change a.toInt - 1 < -32768 ∨ 32767 < a.toInt - 1 ↔ a.toInt = -32768
    omega
  rw [subWords_eq_wordResult, decide_eq_decide.mpr hoverflow]
  rfl

/-- R0 to R14 are incremented; R15 has the relative branch instead (47_single_register R230). -/
theorem exec_inc_of_ne {x : Reg} (hx : x.val ≠ 15) (c : Cond) (f : FlagUpdate) (s : State) :
    exec (.inc c f x) s = finishReg c f x (addWords (s.x x) 1#16) s :=
  if_neg hx

/-- Settles O56: each is a plain register result, but for the increment of R15, which is refused as its reserved row is. -/
theorem incrementAndDecrement : Obligations.IncrementAndDecrement := by
  intro c f x s hcond
  rw [← addWords_one, ← subWords_one]
  refine ⟨⟨encodeR4_word .., fun hx => ?r15, fun hx => ?inc⟩, ⟨encodeR4_word .., ?dec⟩⟩
  case r15 =>
    obtain rfl : x = 15 := Fin.ext hx
    exact exec_of_not_wellFormed_of_holds rfl hcond
  case inc =>
    rw [exec_inc_of_ne hx]
    exact finishReg_spec c f x (addWords (s.x x) 1#16) s hcond
  case dec => exact finishReg_spec c f x (subWords s.cfg (s.x x) 1#16) s hcond

/-- The complement of a word, by arithmetic (47_single_register R232). -/
theorem not_eq_ofNat (a : Word) : ~~~a = BitVec.ofNat 16 (65535 - a.toNat) := by
  have hnot : (~~~a).toNat = 65535 - a.toNat := BitVec.toNat_not
  rw [← hnot, BitVec.ofNat_toNat, BitVec.setWidth_eq]

/-- The complement of R14 has the other context in bit 15 (10_state R26, 40_execution_model R127). -/
theorem ofBit_msb_not_fg_ne (s : State) : Context.ofBit (~~~(s.x 14)).msb ≠ s.K := by
  rw [BitVec.msb_not, State.x, msb_read_fg]
  cases s.K <;> decide

/-- Settles O57: the complement is a plain register result, and complementing R14 turns bit 15, which is K. -/
theorem notRegResult : Obligations.NotRegResult := by
  intro c f x s hcond
  rw [← not_eq_ofNat]
  obtain ⟨t, hexec, hres, hio⟩ := finishReg_spec c f x (plainResult (~~~(s.x x))) s hcond
  refine ⟨encodeR4_word .., t, hexec, hres, hio, fun hx hno => ?_⟩
  obtain rfl : x = 14 := Fin.ext hx
  rw [hres.context, if_pos ⟨hx, hno⟩]
  exact ofBit_msb_not_fg_ne s

/-- The subtraction from 0 overflows at -32768 alone (40_execution_model R132, 47_single_register R233). -/
theorem subWords_zero_left (cfg : Config) (a : Word) :
    subWords cfg 0#16 a = wordResult (BitVec.ofNat 16 (65536 - a.toNat)) (some (borrowOf cfg 0#16 a))
      (some (decide (a = 0x8000#16))) := by
  have hres : BitVec.ofInt 16 ((0#16).toNat - a.toNat : Int) = BitVec.ofNat 16 (65536 - a.toNat) := by
    rw [← sub_eq_ofInt, BitVec.sub_def, BitVec.toNat_ofNat, Nat.zero_mod, Nat.add_zero]
  have hoverflow : ((0#16).toInt - a.toInt < -32768 ∨ 32767 < (0#16).toInt - a.toInt) ↔ a = 0x8000#16 := by
    have hlow := a.le_toInt
    have hhigh := a.toInt_lt
    rw [← BitVec.toInt_inj]
    change 0 - a.toInt < -32768 ∨ 32767 < 0 - a.toInt ↔ a.toInt = -32768
    omega
  rw [subWords_eq_wordResult, hres, decide_eq_decide.mpr hoverflow]

/-- The two bytes exchanged, by arithmetic (47_single_register R233). -/
theorem swapBytes_eq_ofNat (a : Word) : swapBytes a = BitVec.ofNat 16 (a.toNat % 256 * 256 + a.toNat / 256) := by
  have hlow : (a.extractLsb' 0 8).toNat = a.toNat % 256 := BitVec.extractLsb'_toNat ..
  have hhigh : (a.extractLsb' 8 8).toNat = a.toNat / 256 := by
    rw [BitVec.extractLsb'_toNat, Nat.shiftRight_eq_div_pow]
    omega
  rw [swapBytes, append_bytes_eq_ofNat, hlow, hhigh]

/-- `neg` under either NEG_MODE, by arithmetic (47_single_register R233). -/
theorem negWord_eq_wordResult (cfg : Config) (a : Word) :
    negWord cfg a =
      if cfg.negMode = .twosComplement then
        wordResult (BitVec.ofNat 16 (65536 - a.toNat)) (some (borrowOf cfg 0#16 a)) (some (decide (a = 0x8000#16)))
      else wordResult (BitVec.ofNat 16 (a.toNat % 256 * 256 + a.toNat / 256)) none none := by
  rw [negWord, ← subWords_zero_left, ← swapBytes_eq_ofNat]
  cases cfg.negMode <;> rfl

/-- Settles O58: the negated or byte-swapped register is a plain register result. -/
theorem negRegResult : Obligations.NegRegResult := by
  intro c f x s hcond
  rw [← negWord_eq_wordResult]
  exact ⟨encodeR4_word .., finishReg_spec c f x (negWord s.cfg (s.x x)) s hcond⟩

end Sys2Proof.Machine

namespace Sys2Proof.Machine

/-! ### Every defined instruction completes -/

/-- Settles O28: the only other answers are the refusals, and each of them has a reason that is ruled out here. -/
theorem everyDefinedInstructionCompletes : Obligations.EveryDefinedInstructionCompletes := by
  intro i s hwf hres hdiv
  match h : exec i s with
  | .next t => exact ⟨t, rfl⟩
  | .refused e =>
    exfalso
    cases (exec_refused h).2 with
    | reservedOp4 hi =>
      obtain ⟨c, f, p, rfl⟩ := hi
      cases hres
    | reservedIncPc hi =>
      rcases hi with ⟨c, f, rfl⟩ | hi
      · cases hres
      · exact ne_true_of_eq_false hi hwf
    | division hcfg hi =>
      rcases hdiv with hdraw | hclosed
      · exact nomatch hdraw.symm.trans hcfg
      · exact ne_true_of_eq_false hclosed hi

/-! ### Taking the interrupt -/

@[simp] theorem sampleInterrupt_interrupt_pc (s : State) (q) : (s.sampleInterrupt q).interrupt.pc = s.interrupt.pc := by
  simp only [State.sampleInterrupt]; split <;> rfl

/-- The interrupt handling context runs where it was active already and where the signal is taken (60_exceptions R263). -/
theorem sampleInterrupt_K_of_enabled {s : State} (henabled : s.normal.fg.getLsbD 14 = true) :
    (s.sampleInterrupt true).K = .interrupt := by
  cases hK : s.K with
  | normal =>
    have htaken : s.takesInterrupt true = true := by simp [State.takesInterrupt, hK, henabled, FG.I]
    rw [sampleInterrupt_of_taken htaken, enterBySignal_K]
  | interrupt => rw [sampleInterrupt_of_not_taken (takesInterrupt_of_K_interrupt hK _), hK]

/-- A step in the interrupt handling context fetches at the interrupt set's R15 (40_execution_model R120). -/
theorem nextFetchAddress_of_interrupt {s : State} (hK : (s.sampleInterrupt s.lines.irq).K = .interrupt) :
    s.nextFetchAddress = s.interrupt.pc := by
  rw [State.nextFetchAddress, hK]
  exact sampleInterrupt_interrupt_pc ..

@[simp] theorem setRegs_interrupt_normal (s : State) (r) : (s.setRegs .interrupt r).normal = s.normal := rfl
@[simp] theorem setRegs_interrupt_interrupt (s : State) (r) : (s.setRegs .interrupt r).interrupt = r := rfl

/-- The advance in the interrupt handling context is that of the interrupt set's R15 (40_execution_model R121). -/
theorem advancePc_of_interrupt {s : State} (hK : s.K = .interrupt) :
    s.advancePc = s.setRegs .interrupt { s.interrupt with pc := s.interrupt.pc + 1#16 } := by
  rw [State.advancePc, hK]
  rfl

/-- Lines 2 to 9 of a step that runs an instruction of the interrupt handling context. -/
theorem step_of_interrupt {s : State} (hreset : s.lines.reset = false) (hhalted : s.halted = false)
    (hK : (s.sampleInterrupt s.lines.irq).K = .interrupt) (hio : s.fetchIsIo s.interrupt.pc = false) :
    step s = exec (decodeWord (s.fetchWord s.interrupt.pc)) (s.sampleInterrupt s.lines.irq).consumeInputs.advancePc := by
  rw [step_of_running hreset hhalted, nextFetchAddress_of_interrupt hK, if_neg (ne_true_of_eq_false hio)]

/-- Settles O11: the signal is taken, and the step goes on from the entered state with its R15 advanced. -/
theorem stepEntersTheInterruptContext : Obligations.StepEntersTheInterruptContext := by
  intro s hlines hhalted hK henabled hio
  have htaken : s.takesInterrupt true = true := by simp [State.takesInterrupt, hK, henabled, FG.I]
  have hstep := step_of_interrupt (by rw [hlines]) hhalted
    (by rw [hlines]; exact sampleInterrupt_K_of_enabled henabled) hio
  rw [hlines, sampleInterrupt_of_taken htaken, advancePc_of_interrupt (by simp)] at hstep
  refine ⟨_, hstep, rfl, rfl, rfl, fun n _ => ?_, rfl, hhalted, rfl, rfl, rfl, rfl, rfl, rfl, rfl⟩
  change (putBit s.interrupt.fg FG.I true).getLsbD n = _
  simp [getLsbD_putBit, FG.I]

/-- The level of irq is read only to take the interrupt (40_execution_model R120 line 2). -/
theorem step_congr_of_not_taken {s t : State} (hnot : ∀ q, s.takesInterrupt q = false)
    (hconsume : t.consumeInputs = s.consumeInputs) (hreset : t.lines.reset = s.lines.reset) : step t = step s := by
  have hhalted : t.halted = s.halted := by simpa using congrArg State.halted hconsume
  have hsame : ∀ q, s.consumeInputs.sampleInterrupt q = s.consumeInputs := fun q =>
    sampleInterrupt_of_not_taken (hnot q)
  rw [step, step, hconsume, hreset, hhalted, hsame, hsame]

/-- Settles O12: the two states differ in the level of irq alone, and no level of it takes the interrupt. -/
theorem maskedInterruptIsIgnored : Obligations.MaskedInterruptIsIgnored := by
  intro s b hmask
  have hnot : ∀ q, s.takesInterrupt q = false := by
    rcases hmask with hK | hI
    · exact takesInterrupt_of_K_interrupt hK
    · exact fun q => by rw [State.takesInterrupt, hI, Bool.and_false]
  symm
  exact step_congr_of_not_taken hnot rfl rfl

/-! ### The normal set while the interrupt handling context is active -/

theorem RegSet.ext_of_bits {r r' : RegSet} (hgpr : r'.gpr = r.gpr) (hpc : r'.pc = r.pc)
    (hfg : ∀ n, n < 15 → r'.fg.getLsbD n = r.fg.getLsbD n) : r' = r := by
  obtain ⟨gpr, fg, pc⟩ := r
  obtain ⟨gpr', fg', pc'⟩ := r'
  obtain rfl : gpr' = gpr := hgpr
  obtain rfl : pc' = pc := hpc
  obtain rfl : fg' = fg := BitVec.eq_of_getLsbD_eq hfg
  rfl

/-- The exception of the cause bit is one of the interrupt set (10_state R23, 60_exceptions R268). -/
theorem OtherSetKept.normal_eq {s t : State} (h : OtherSetKept s t) (hK : s.K = .interrupt) : t.normal = s.normal := by
  have hne : Context.normal ≠ s.K := by rw [hK]; decide
  exact RegSet.ext_of_bits (h.gpr _ hne) (h.pc _ hne) fun n hn => (h.fg _ hne n hn).trans (if_neg (by simp))

@[simp] theorem writeBack_inputs (s : State) (d) : (s.writeBack d).inputs = s.inputs := by
  cases d <;> simp [State.writeBack]
@[simp] theorem writeBack_held (s : State) (d) : (s.writeBack d).held = s.held := by
  cases d <;> simp [State.writeBack]

/-- No instruction touches the input lines (10_state R46, log 4). -/
theorem exec_inputs_held {i : Instr} {s t : State} (h : exec i s = .next t) :
    t.inputs = s.inputs ∧ t.held = s.held := by
  rcases exec_cases h with rfl | ⟨u, d, fl, r, hf⟩
  · exact ⟨rfl, rfl⟩
  · rw [← hf.prepared.inputs, ← hf.prepared.held]
    rcases finish_cases hf.result with ⟨-, rfl⟩ | ⟨-, rfl⟩ <;> simp

/-- What an instruction asks for depends on the flags of the active set alone (60_exceptions R275, R276). -/
theorem movesOneToFG_congr {s t : State} (h : t.fg = s.fg) (b : BitNo) (i : Instr) :
    movesOneToFG b i t = movesOneToFG b i s := by
  cases i <;> simp only [movesOneToFG, State.flagX, h]

theorem SignalHeldHigh.lines_eq {s : State} (h : SignalHeldHigh s) : s.lines = ⟨true, false⟩ := by
  rw [State.lines, h.inputs, h.held]
  rfl

/-- With the signal held and I = 1 each step of a running processor is one of the interrupt handling context, whose
instruction cannot touch the normal set but by a soft reset (60_exceptions R264). -/
theorem SignalHeldHigh.step_running {s t : State} (h : SignalHeldHigh s) (hhalted : s.halted = false) (ht : step s = .next t)
    (hsoft : asksSoftReset (decodeWord (s.fetchWord s.interrupt.pc)) (s.sampleInterrupt true) = false) :
    t.normal = s.normal ∧ t.inputs = s.inputs.tail ∧ t.held = s.held := by
  have hK := sampleInterrupt_K_of_enabled h.enabled
  rw [step_of_running (by rw [h.lines_eq]) hhalted, nextFetchAddress_of_interrupt (by rw [h.lines_eq]; exact hK),
    h.lines_eq] at ht
  split at ht
  next => cases ht
  next =>
    have hkept := inactiveSetIsUntouched _ _ _ ht ((movesOneToFG_congr (by simp) _ _).trans hsoft)
    obtain ⟨hinputs, hheld⟩ := exec_inputs_held ht
    refine ⟨?_, by simpa using hinputs, by simpa using hheld⟩
    rw [hkept.normal_eq (by simpa using hK), advancePc_of_interrupt (by simpa using hK)]
    simp

/-- Settles O60: the situation is kept by every step, and in it every step runs the interrupt handling context. -/
theorem heldSignalStarvesTheNormalContext : Obligations.HeldSignalStarvesTheNormalContext := by
  intro s h
  have hK := sampleInterrupt_K_of_enabled h.enabled
  refine ⟨fun hhalted hio => ?_, fun t ht hsoft => ?_⟩
  · have hstep := step_of_interrupt (by rw [h.lines_eq]) hhalted (by rw [h.lines_eq]; exact hK) hio
    rw [h.lines_eq, advancePc_of_interrupt (by simpa using hK)] at hstep
    exact ⟨_, hstep, by simpa using hK, by simp, by simp⟩
  · have hkept : t.normal = s.normal ∧ t.inputs = s.inputs.tail ∧ t.held = s.held := by
      cases hhalted : s.halted with
      | true =>
        rw [haltedProcessorDoesNothing s (by rw [h.lines_eq]) hhalted] at ht
        cases ht
        exact ⟨rfl, rfl, rfl⟩
      | false => exact h.step_running hhalted ht (hsoft.resolve_left (by simp [hhalted]))
    obtain ⟨hnormal, hinputs, hheld⟩ := hkept
    exact ⟨hnormal, by rw [hinputs, h.inputs]; rfl, hheld.trans h.held, hnormal ▸ h.enabled⟩

end Sys2Proof.Machine

namespace Sys2Proof.Machine

/-! ### The reset state -/

/-- Settles O21: both memories are empty at reset. -/
theorem resetMemoryIsCanonical : Obligations.ResetMemoryIsCanonical :=
  ⟨reset_memory_wf.1, reset_memory_wf.2⟩

/-- A processor reset over memory, parameters and device record as they were is the reset state of the spec
(10_state R48, 70_reset_and_hazards R301). -/
theorem isProcessorReset_processorReset {s u : State} (hmem : SameMemory s u) (hcfg : u.cfg = s.cfg)
    (hio : NoDeviceNoDraw s u) : IsProcessorReset s u.processorReset where
  context := rfl
  gpr k i hi := by rw [State.regOf, processorReset_regs, read_gpr _ _ _ _ hi, RegSet.zero_gpr]
  fg k := by rw [processorReset_regs]; rfl
  pc k := by rw [processorReset_regs]; rfl
  halted := rfl
  memory := ⟨hmem.data, hmem.prog⟩
  cfg := hcfg
  io := ⟨hio.ioLog, hio.draws⟩

/-- Settles O14: the step is the processor reset with a sample used up. -/
theorem resetInputWins : Obligations.ResetInputWins := by
  intro s hreset
  have hframe : SameMemory s s.consumeInputs := sameMemory_of_eq rfl rfl
  exact ⟨_, if_pos hreset, isProcessorReset_processorReset hframe rfl ⟨rfl, rfl⟩, rfl, rfl⟩

/-! ### The words of the reacting moves -/

theorem decodeWord_eq_iff {i : Instr} (hi : i.wellFormed = true) (w : Word) : decodeWord w = i ↔ w = encode i :=
  ⟨fun h => by rw [← h, encode_decodeWord], fun h => by rw [h, decodeWord_encode hi]⟩

theorem quartets_of_and_eq {w : Word} {op : BitVec 4} {y x : Fin 16}
    (h : w &&& 0x0FFF#16 = encodeRR4 op .al .nf y x) : op4Field w = op.toNat ∧ highQuartet w = y ∧ lowQuartet w = x := by
  have hfields := encodeRR4_word op .al .nf y x
  refine ⟨?_, ?_, ?_⟩
  · rw [← op4Field_encodeRR4 op .al .nf y x, op4Field, op4Field, extractLsb'_of_and_eq h (by decide)]
  · rw [← hfields.y, highQuartet, highQuartet, extractLsb'_of_and_eq h (by decide)]
  · rw [← hfields.x, lowQuartet, lowQuartet, extractLsb'_of_and_eq h (by decide)]

/-- The mask takes the condition and the f bit out of a word (30_encoding R91). -/
theorem encodeRR4_and_mask (op : BitVec 4) (c : Cond) (f : FlagUpdate) (y x : Fin 16) :
    encodeRR4 op c f y x &&& 0x0FFF#16 = encodeRR4 op .al .nf y x := by
  apply and_eq_of_bits
  intro n hn
  simp only [encodeRR4, BitVec.getLsbD_append]
  interval_cases n <;> simp [condCode, flagCode]

/-- The words of one opcode and parameters with any condition and either f (30_encoding R91, R92). -/
theorem exists_encodeRR4_iff (w : Word) (op : BitVec 4) (y x : Fin 16) :
    (∃ c f, w = encodeRR4 op c f y x) ↔ w &&& 0x0FFF#16 = encodeRR4 op .al .nf y x := by
  constructor
  · rintro ⟨c, f, rfl⟩
    exact encodeRR4_and_mask ..
  · intro h
    obtain ⟨hop, hy, hx⟩ := quartets_of_and_eq h
    exact ⟨condField w, flagField w, by rw [← hy, ← hx, encodeRR4_fields hop]⟩

/-- `no` is the condition code 111 (40_execution_model R122). -/
theorem cond_decodeWord_ne_no_iff (w : Word) : (decodeWord w).cond ≠ .no ↔ w &&& 0xE000#16 ≠ 0xE000#16 := by
  rw [cond_decodeWord]
  refine not_congr ⟨fun h => ?_, fun h => ?_⟩
  · have hcode : w.extractLsb' 13 3 = 7#3 := (condCode_condOfCode _).symm.trans (congrArg condCode h)
    have hword : w = w.extractLsb' 13 3 ++ w.extractLsb' 0 13 := by
      rw [BitVec.extractLsb'_append_extractLsb'_eq_extractLsb' (start₁ := 0) (len₁ := 13) rfl, BitVec.extractLsb'_eq_self]
    have hmask : 0xE000#16 = 7#3 ++ 0#13 := by decide
    rw [hword, hcode, hmask, BitVec.and_append, BitVec.and_zero, BitVec.and_self]
  · rw [condField, extractLsb'_of_and_eq h (by decide)]
    rfl

/-- An instruction asks for a reaction exactly where it executes, not under `no`, and is one of the two moves of a 1
(60_exceptions R275, R276). -/
theorem movesOneToFG_iff (b : BitNo) (i : Instr) (s : State) :
    movesOneToFG b i s = true ↔ condHolds i.cond s.fg = true ∧ i.cond ≠ .no ∧
      ((∃ c f, i = .setBit c f 14 b) ∨ ((∃ c f, i = .movBitX c f 14 b) ∧ s.flagX = true)) := by
  cases i with
  | setBit c f x n | movBitX c f x n => simp [movesOneToFG, Instr.cond, and_assoc]
  | _ => simp [movesOneToFG]

/-- The words of the two moves (60_exceptions R275, R276). -/
theorem movesOneToFG_decodeWord_iff (b : BitNo) (w : Word) (s : State) :
    movesOneToFG b (decodeWord w) s = true ↔
      condHolds (decodeWord w).cond s.fg = true ∧ w &&& 0xE000#16 ≠ 0xE000#16 ∧
        (w &&& 0x0FFF#16 = encode (.setBit .al .nf 14 b) ∨
          (w &&& 0x0FFF#16 = encode (.movBitX .al .nf 14 b) ∧ s.flagX = true)) := by
  have hset (c f) : decodeWord w = .setBit c f 14 b ↔ w = encodeRR4 7#4 c f b 14 := decodeWord_eq_iff rfl w
  have hmov (c f) : decodeWord w = .movBitX c f 14 b ↔ w = encodeRR4 5#4 c f b 14 := decodeWord_eq_iff rfl w
  rw [movesOneToFG_iff, cond_decodeWord_ne_no_iff]
  simp only [hset, hmov, exists_encodeRR4_iff, encode]

/-! ### Soft reset and halt -/

theorem msb_putBit_of_ne (w : Word) {b : BitNo} (hb : b ≠ 15) (v : Bool) : (putBit w b.val v).msb = w.msb := by
  have hne : ¬(15 = b.val ∧ b.val < 16) := fun h => hb (Fin.ext h.1.symm)
  rw [BitVec.msb_eq_getLsbD_last, BitVec.msb_eq_getLsbD_last]
  exact (getLsbD_putBit ..).trans (if_neg hne)

/-- The write of a bit of R14 below bit 15 asks for no context switch (40_execution_model R127). -/
theorem requested_putBit_of_ne (s : State) {b : BitNo} (hb : b ≠ 15) (v : Bool) :
    s.requested (.reg 14 (putBit (s.x 14) b.val v)) = none :=
  if_neg fun h => h.2 ((msb_putBit_of_ne _ hb v).trans (msb_read_fg ..))

/-- Settles O40: line 9 replaces the state by the reset state, whatever lines 7 and 8 did to the registers. -/
theorem softReset : Obligations.SoftReset := by
  refine ⟨fun i s h => ?_, movesOneToFG_decodeWord_iff 12⟩
  obtain ⟨hc, hno, hexec⟩ := exec_of_movesOneToFG h
  rw [hexec, finishBit, whenHolds_of_holds hc, finish, if_neg hno, requested_putBit_of_ne s (by decide), State.writeBack]
  exact ⟨_, rfl, isProcessorReset_processorReset (sameMemory_of_eq (by simp) (by simp)) (by simp) ⟨by simp, by simp⟩,
    by simp, by simp⟩

/-- Settles O41: the move is a register result in R14 that halts. -/
theorem halt : Obligations.Halt := by
  refine ⟨fun i s h => ?_, movesOneToFG_decodeWord_iff 13⟩
  obtain ⟨hc, hno, hexec⟩ := exec_of_movesOneToFG h
  obtain ⟨t, hfinish, hres, hio⟩ := finish_halt_spec i.cond hno i.flagUpdate 14 (r14BitResult s 13 true) s
  rw [hexec, finishBit, whenHolds_of_holds hc]
  exact ⟨t, _, hfinish, isBitReplaced_putBit _ 13 true, hres, hio⟩

end Sys2Proof.Machine

namespace Sys2Proof.Machine

/-! ### The assembler -/

theorem condMeaning_condNameOf (c : Cond) : condMeaning (condNameOf c) = .hardware c := by cases c <;> rfl

theorem toLow_castLE (x : LowReg) (h : 8 ≤ 16) : toLow (x.castLE h) = some x := dif_pos x.isLt

theorem lowPair_castLE (make : LowReg → LowReg → Instr) (x y : LowReg) (h h' : 8 ≤ 16) :
    lowPair make (x.castLE h) (y.castLE h') = some (make x y) := by
  rw [lowPair, toLow_castLE, toLow_castLE]

theorem toIii_count (i : Fin 8) : toIii (i.val + 1) = some i := by
  rw [toIii, if_pos (by omega)]
  simp

theorem lowShift_castLE (make : LowReg → Fin 8 → Instr) (x : LowReg) (i : Fin 8) (h : 8 ≤ 16) :
    lowShift make (x.castLE h) (i.val + 1) = some (make x i) := by
  rw [lowShift, toLow_castLE, toIii_count]

theorem toImm8_toNat (b : Byte) : toImm8 b.toNat = some b := by
  have hb := b.isLt
  rw [toImm8, if_pos (by omega), BitVec.ofInt_natCast, BitVec.ofNat_toNat, BitVec.setWidth_eq]

theorem toSimm8_toInt (b : Byte) : toSimm8 b.toInt = some b := by
  have hlow := b.le_toInt
  have hhigh := b.toInt_lt
  rw [toSimm8, if_pos (by omega), BitVec.ofInt_toInt]

/-- The opcode chosen from an instruction's own mnemonic and operands is its own (48_assembler R243). -/
theorem assembleOne_operandsOf {i : Instr} {m : Mnemonic} {ops : List Operand} (hi : i.wellFormed = true)
    (h : operandsOf i = some (m, ops)) : assembleOne i.cond i.flagUpdate m ops = some i := by
  cases i with
  | reservedOp4 | reservedIncPc => cases h
  | movLow c f imm | movHigh c f imm => cases h; exact congrArg (Option.map _) (toImm8_toNat imm)
  | addPc c f simm => cases h; exact congrArg (Option.map _) (toSimm8_toInt simm)
  | inc c f x =>
    cases h
    exact if_neg (of_decide_eq_true hi)
  | addReg | subReg | andReg | orReg | xorReg | shlReg | shrReg | sarReg | mulReg | divReg | imulReg | idivReg =>
    cases h
    exact lowPair_castLE ..
  | shlImm | shrImm | sarImm =>
    cases h
    exact lowShift_castLE ..
  | _ => cases h; rfl

theorem operandsOf_isSome {i : Instr} (h : i.isReserved = false) : ∃ m ops, operandsOf i = some (m, ops) := by
  cases i with
  | reservedOp4 | reservedIncPc => cases h
  | _ => exact ⟨_, _, rfl⟩

theorem assemble_of_hardware {name : CondName} {c : Cond} (h : condMeaning name = .hardware c) (f m ops) :
    assemble ⟨name, f, m, ops⟩ = (assembleOne c f m ops).map fun i => [i] := by
  rw [assemble, h]

theorem assemble_of_generated {name : CondName} {bit : BitNo} {c : Cond} (h : condMeaning name = .generated bit c)
    (f m ops) : assemble ⟨name, f, m, ops⟩ = (assembleOne c f m ops).map fun i => [copyToX bit, i] := by
  rw [assemble, h]

/-- Settles O7: the condition is printed under a hardware name, so the source form is one instruction, the given one. -/
theorem assembleOfDisassemble : Obligations.AssembleOfDisassemble := by
  intro i hi hres
  obtain ⟨m, ops, hops⟩ := operandsOf_isSome hres
  refine ⟨⟨condNameOf i.cond, i.flagUpdate, m, ops⟩, by rw [disassemble, hops]; rfl, ?_⟩
  rw [assembleWords, assemble_of_hardware (condMeaning_condNameOf _), assembleOne_operandsOf hi hops]
  rfl

/-- Settles O8, by running the assembler on the two source forms. -/
theorem workedExpansionsOfGeneratedConditions : Obligations.WorkedExpansionsOfGeneratedConditions := by
  constructor <;> rfl

/-! ### The generated conditions -/

/-- The condition and the f bit that the instruction carries (30_encoding R91). -/
def HasHeader (c : Cond) (f : FlagUpdate) (i : Instr) : Prop := i.cond = c ∧ i.flagUpdate = f

section Header

variable {c : Cond} {f : FlagUpdate} {i : Instr}

theorem header_of_lowPair {make : LowReg → LowReg → Instr} {x y : Reg} (hmake : ∀ a b, HasHeader c f (make a b))
    (h : lowPair make x y = some i) : HasHeader c f i := by
  unfold lowPair at h
  split at h <;> cases h
  exact hmake ..

theorem header_of_lowShift {make : LowReg → Fin 8 → Instr} {x : Reg} {v : Int} (hmake : ∀ a b, HasHeader c f (make a b))
    (h : lowShift make x v = some i) : HasHeader c f i := by
  unfold lowShift at h
  split at h <;> cases h
  exact hmake ..

theorem header_of_assemblePair {make : LowReg → LowReg → Instr} {ops : List Operand}
    (hmake : ∀ a b, HasHeader c f (make a b)) (h : assemblePair make ops = some i) : HasHeader c f i := by
  unfold assemblePair at h
  split at h
  · exact header_of_lowPair hmake h
  · cases h

theorem header_of_assembleShift {byReg : LowReg → LowReg → Instr} {byImm : LowReg → Fin 8 → Instr} {ops : List Operand}
    (hreg : ∀ a b, HasHeader c f (byReg a b)) (himm : ∀ a b, HasHeader c f (byImm a b))
    (h : assembleShift byReg byImm ops = some i) : HasHeader c f i := by
  unfold assembleShift at h
  split at h
  · exact header_of_lowPair hreg h
  · exact header_of_lowShift himm h
  · cases h

/-- The assembler writes the condition and the f it was given (48_assembler R240). -/
theorem header_of_assembleOne {m : Mnemonic} {ops : List Operand} (h : assembleOne c f m ops = some i) :
    HasHeader c f i := by
  cases m with
  | mov =>
    change assembleMov c f ops = some i at h
    unfold assembleMov at h
    split at h
    case h_6 => split_ifs at h <;> cases h <;> exact ⟨rfl, rfl⟩
    case h_7 | h_8 =>
      obtain ⟨imm, -, rfl⟩ := Option.map_eq_some_iff.mp h
      exact ⟨rfl, rfl⟩
    case h_9 => cases h
    all_goals cases h; exact ⟨rfl, rfl⟩
  | add =>
    change assembleAdd c f ops = some i at h
    unfold assembleAdd at h
    split at h
    · exact header_of_lowPair (fun _ _ => ⟨rfl, rfl⟩) h
    · split_ifs at h
      · obtain ⟨simm, -, rfl⟩ := Option.map_eq_some_iff.mp h
        exact ⟨rfl, rfl⟩
      · cases h; exact ⟨rfl, rfl⟩
    · cases h
  | sub =>
    change assembleSub c f ops = some i at h
    unfold assembleSub at h
    split at h
    · exact header_of_lowPair (fun _ _ => ⟨rfl, rfl⟩) h
    · split_ifs at h
      cases h; exact ⟨rfl, rfl⟩
    · cases h
  | not =>
    change assembleNot c f ops = some i at h
    unfold assembleNot at h
    split at h <;> cases h <;> exact ⟨rfl, rfl⟩
  | neg =>
    change assembleNeg c f ops = some i at h
    unfold assembleNeg at h
    split at h <;> cases h; exact ⟨rfl, rfl⟩
  | shl | shr | sar => exact header_of_assembleShift (fun _ _ => ⟨rfl, rfl⟩) (fun _ _ => ⟨rfl, rfl⟩) h
  | _ => exact header_of_assemblePair (fun _ _ => ⟨rfl, rfl⟩) h

end Header

/-- The first word of a generated condition is one word per bit (48_assembler R244). -/
theorem encode_copyToX (bit : BitNo) : encode (copyToX bit) = BitVec.ofNat 16 (0x030E + 16 * bit.val) := by
  revert bit
  decide

/-- The first word of a generated condition writes X and nothing else (42_bit_instructions R170, 48_assembler R244). -/
theorem exec_copyToX (bit : BitNo) (s : State) :
    exec (copyToX bit) s = .next (s.writeX ((s.regOf s.K 14).getLsbD bit.val)) := rfl

/-- A read of R14 sees a write of X in bit 2 alone: A, L and G do not depend on X (40_execution_model R134). -/
theorem getLsbD_regOf_writeX (s : State) (b : Bool) {n : Nat} (hn : n ≠ 2) :
    ((s.writeX b).regOf s.K 14).getLsbD n = (s.regOf s.K 14).getLsbD n := by
  have hfg (m : Nat) (hm : m ≠ 2) : ((s.writeX b).regs s.K).fg.getLsbD m = (s.regs s.K).fg.getLsbD m := by
    rw [fg_writeX, getLsbD_putBit, if_neg (by omega)]
  obtain hlt | rfl | hge : n < 15 ∨ n = 15 ∨ 16 ≤ n := by omega
  · rw [regOf_fg_bits _ _ hlt, regOf_fg_bits _ _ hlt, readFlags, readFlags, writeX_cfg]
    cases s.cfg.algMode with
    | stored => exact hfg n hn
    | live =>
      simp only [getLsbD_withAlg, algA, algL, algG, hfg n hn, hfg FG.C (by decide), hfg FG.Z (by decide),
        hfg FG.S (by decide), hfg FG.V (by decide)]
  · rw [readsOfTheFlagRegister.1, readsOfTheFlagRegister.1]
  · rw [BitVec.getLsbD_of_ge _ _ hge, BitVec.getLsbD_of_ge _ _ hge]

/-- The condition asked for holds exactly where X has the level asked for (40_execution_model R122). -/
theorem condHolds_level_iff (s : State) (set : Bool) :
    condHolds (if set then .xs else .xc) s.fg = true ↔ s.flagX = set := by
  cases set
  · exact (Bool.not_eq_true' s.flagX).to_iff
  · rfl

/-- Settles O9: a generated name stands for its bit and level, and the first word copies the bit to X. -/
theorem generatedConditionTestsItsFlag : Obligations.GeneratedConditionTestsItsFlag := by
  intro name bit set hname
  have hmeaning : condMeaning name = .generated bit (if set then .xs else .xc) :=
    (by decide : ∀ p ∈ _, condMeaning p.1 = .generated p.2.1 (if p.2.2 then .xs else .xc)) _ hname
  refine ⟨assemble_of_generated hmeaning, fun _ _ _ _ => header_of_assembleOne, encode_copyToX bit, fun s => ?_⟩
  obtain ⟨-, t, hexec, hres, hio⟩ := movXBitResult .al .nf 14 bit s rfl
  obtain rfl : s.writeX ((s.regOf s.K 14).getLsbD bit.val) = t := Host.Outcome.next.inj hexec
  have hX : (s.writeX ((s.regOf s.K 14).getLsbD bit.val)).flagX = (s.regOf s.K 14).getLsbD bit.val := by
    rw [State.flagX, State.fg, writeX_K, fg_writeX, getLsbD_putBit]
    rfl
  exact ⟨_, hexec, hX, by rw [condHolds_level_iff, hX], hres.regs, fun n hn => getLsbD_regOf_writeX s _ hn, hres.others,
    hres.context, hres.halted, hres.memory, hio⟩

end Sys2Proof.Machine

namespace Sys2Proof.Machine

/-! ### Instructions that write R14 -/

/-- What lines 7 and 8 are given for R14: the written word with the flag inputs, where R14 is the destination
(40_execution_model R127). -/
def Dest.r14 (d : Dest) (fl : FlagInputs) : Option Computed :=
  match d with
  | .reg d v => if d = 14 then some ⟨v, fl⟩ else none
  | .flagX _ => none
  | .mem _ _ => none

theorem Dest.eq_of_r14_eq_some {d : Dest} {fl : FlagInputs} {r : Computed} (h : d.r14 fl = some r) :
    d = .reg 14 r.res ∧ fl = r.flags := by
  cases d with
  | reg d v =>
    obtain ⟨rfl, hr⟩ := Option.ite_none_right_eq_some.mp h
    obtain rfl := Option.some.inj hr
    exact ⟨rfl, rfl⟩
  | flagX b => cases h
  | mem a v => cases h

theorem low_ne_fourteen (x : LowReg) : low x ≠ 14 := fun h =>
  Nat.not_lt.mpr (by decide) (Fin.val_eq_of_eq h ▸ x.isLt : (14 : Reg).val < 8)

/-- `addWords_one` with the sum as a word (47_single_register R230). -/
theorem addWords_one_eq_wordResult (a : Word) :
    addWords a 1#16 = wordResult (a + 1#16) (some (decide (a = 0xFFFF#16))) (some (decide (a = 0x7FFF#16))) :=
  addWords_one a

/-- `subWords_one` with the difference as a word (47_single_register R231). -/
theorem subWords_one_eq_wordResult (cfg : Config) (a : Word) :
    subWords cfg a 1#16 = wordResult (a - 1#16) (some (borrowOf cfg a 1#16)) (some (decide (a = 0x8000#16))) := by
  rw [sub_eq_ofInt]
  exact subWords_one cfg a

/-- `negWord_eq_wordResult` with the results as words (47_single_register R233). -/
theorem negWord_eq_neg (cfg : Config) (a : Word) :
    negWord cfg a =
      if cfg.negMode = .twosComplement then
        wordResult (-a) (some (borrowOf cfg 0#16 a)) (some (decide (a = 0x8000#16)))
      else wordResult (swapBytes a) none none := by
  rw [negWord]
  cases cfg.negMode with
  | twosComplement => exact subWords_zero_left cfg a
  | byteSwap => rfl

/-- The instruction ends with lines 7 to 9, which are given for R14 what `r14Result` says, and a soft reset where it asks
for one. -/
inductive Executes (i : Instr) (s : State) : Prop where
  | intro {u : State} {d : Dest} {fl : FlagInputs} {rc : Reaction} (prepared : Prepared s u)
      (exec_eq : exec i s = finish i.cond i.flagUpdate d fl rc u) (r14 : r14Result i s = d.r14 fl)
      (soft : rc = .softReset → asksSoftReset i s = true)

section Executing

variable {i : Instr} {s t : State} (hcond : condHolds i.cond s.fg = true)
include hcond

theorem Executes.of_reg {x : Reg} {r : Computed} (hexec : exec i s = finishReg i.cond i.flagUpdate x r s)
    (hr14 : r14Result i s = if x = 14 then some r else none) : Executes i s :=
  .intro (d := .reg x r.res) .same (hexec.trans (whenHolds_of_holds hcond _)) hr14 nofun

theorem Executes.of_bit {x : Reg} {b : BitNo} {v : Bool} {rc : Reaction}
    (hexec : exec i s = finishBit i.cond i.flagUpdate x b v rc s)
    (hr14 : r14Result i s = if x = 14 then some (bitResult (putBit (s.x x) b.val v) v) else none)
    (hsoft : rc = .softReset → asksSoftReset i s = true) : Executes i s :=
  .intro (d := .reg x (putBit (s.x x) b.val v)) .same (hexec.trans (whenHolds_of_holds hcond _)) hr14 hsoft

theorem Executes.of_openDivision {x : LowReg}
    (hexec : exec i s = whenHolds i.cond s (finishOpenDivision i.cond i.flagUpdate (low x) s))
    (hr14 : r14Result i s = none) (h : exec i s = .next t) : Executes i s := by
  rw [whenHolds_of_holds hcond, finishOpenDivision] at hexec
  split at hexec
  · exact .intro .drew hexec (hr14.trans (if_neg (low_ne_fourteen x)).symm) nofun
  · exact nomatch hexec.symm.trans h

/-- Every executing instruction that answers a next state does so by lines 7 to 9, and they are given for R14 what
`r14Result` says. -/
theorem executes_of_next (h : exec i s = .next t) (hno : i.cond ≠ .no) : Executes i s := by
  cases i with
  | load c f x y => exact .intro (d := .reg x _) (.loaded _) (whenHolds_of_holds hcond _) rfl nofun
  | store c f x y => exact .intro (d := .mem _ _) .same (whenHolds_of_holds hcond _) rfl nofun
  | movXBit c f x b => exact .intro (d := .flagX _) .same (whenHolds_of_holds hcond _) rfl nofun
  | reservedOp4 | reservedIncPc =>
    obtain ⟨e, hrefused⟩ := exec_of_isReserved_of_holds rfl hcond
    exact nomatch hrefused.symm.trans h
  | movBitX c f x b =>
    refine .of_bit hcond rfl (ite_congr rfl (fun hx => by rw [hx]; rfl) fun _ => rfl) fun hrc => ?_
    obtain ⟨rfl, rfl, hX⟩ := moveReaction_softReset hrc
    exact (movesOneToFG_iff ..).mpr ⟨hcond, hno, .inr ⟨⟨c, f, rfl⟩, hX⟩⟩
  | setBit c f x b =>
    refine .of_bit hcond rfl (ite_congr rfl (fun hx => by rw [hx]; rfl) fun _ => rfl) fun hrc => ?_
    obtain ⟨rfl, rfl, -⟩ := moveReaction_softReset hrc
    exact (movesOneToFG_iff ..).mpr ⟨hcond, hno, .inl ⟨c, f, rfl⟩⟩
  | clearBit c f x b | notBit c f x b =>
    exact .of_bit hcond rfl (ite_congr rfl (fun hx => by rw [hx]; rfl) fun _ => rfl) nofun
  | divReg c f x y =>
    by_cases hopen : isOpenDivision (.divReg c f x y) s = true
    · exact .of_openDivision hcond (exec_division_of_isOpenDivision (.inl rfl) hopen) rfl h
    · exact .of_reg hcond (exec_divReg_of_not_isOpenDivision (eq_false_of_ne_true hopen)) (if_neg (low_ne_fourteen x)).symm
  | idivReg c f x y =>
    by_cases hopen : isOpenDivision (.idivReg c f x y) s = true
    · exact .of_openDivision hcond (exec_division_of_isOpenDivision (.inr rfl) hopen) rfl h
    · exact .of_reg hcond (exec_idivReg_of_not_isOpenDivision (eq_false_of_ne_true hopen)) (if_neg (low_ne_fourteen x)).symm
  | inc c f x =>
    by_cases hx : x.val = 15
    · obtain rfl : x = 15 := Fin.ext hx
      exact nomatch (exec_of_not_wellFormed_of_holds rfl hcond).symm.trans h
    · exact .of_reg hcond (exec_inc_of_ne hx c f s)
        (ite_congr rfl (fun hx => by rw [hx, addWords_one_eq_wordResult]) fun _ => rfl)
  | dec c f x =>
    exact .of_reg hcond rfl (ite_congr rfl (fun hx => by rw [hx, subWords_one_eq_wordResult]) fun _ => rfl)
  | negReg c f x =>
    refine .of_reg hcond rfl (ite_congr rfl (fun hx => ?_) fun _ => rfl)
    rw [hx, negWord_eq_neg]
    split <;> rfl
  | notReg c f x => exact .of_reg hcond rfl (ite_congr rfl (fun hx => by rw [hx]; rfl) fun _ => rfl)
  | movReg c f x y => exact .of_reg hcond rfl rfl
  | movLow | movHigh | addPc => exact .of_reg hcond rfl (if_neg (by decide)).symm
  | _ => exact .of_reg hcond rfl (if_neg (low_ne_fourteen _)).symm

end Executing

/-- An instruction that can name R14 as its destination is none of the refused ones (40_execution_model R127). -/
theorem defined_of_r14Result {i : Instr} {s : State} {r : Computed} (h : r14Result i s = some r) :
    i.wellFormed = true ∧ i.isReserved = false ∧ isOpenDivision i s = false := by
  cases i with
  | inc c f x =>
    obtain ⟨rfl, -⟩ := Option.ite_none_right_eq_some.mp h
    exact ⟨rfl, rfl, rfl⟩
  | reservedOp4 | reservedIncPc | divReg | idivReg => cases h
  | _ => exact ⟨rfl, rfl, rfl⟩

/-! ### The context switch by a write of R14 -/

theorem msb_putBit_15 (w : Word) (v : Bool) : (putBit w 15 v).msb = v := by
  rw [BitVec.msb_eq_getLsbD_last]
  exact (getLsbD_putBit ..).trans (if_pos (by decide))

/-- A soft reset writes bit 12 of R14, so the written word asks for no switch (60_exceptions R275). -/
theorem msb_of_asksSoftReset {i : Instr} {s : State} {r : Computed} (h : asksSoftReset i s = true)
    (hr : r14Result i s = some r) : r.res.msb = s.K.bit := by
  obtain ⟨-, -, ⟨c, f, rfl⟩ | ⟨⟨c, f, rfl⟩, -⟩⟩ := (movesOneToFG_iff ..).mp h
  all_goals
    cases hr
    exact (msb_putBit_of_ne _ (by decide) _).trans (msb_read_fg ..)

theorem writesR14_eq_some {i : Instr} {s : State} {r : Computed} (h : writesR14 i s = some r) :
    (condHolds i.cond s.fg = true ∧ i.cond ≠ .no) ∧ r14Result i s = some r :=
  Option.ite_none_right_eq_some.mp h

/-- An executing instruction that writes to R14 a word whose bit 15 is not K completes with that register result
(40_execution_model R127). -/
theorem exec_of_writesR14 {i : Instr} {s : State} {r : Computed} (h : writesR14 i s = some r) (hK : r.res.msb ≠ s.K.bit) :
    ∃ t halts, exec i s = .next t ∧ RegResult i.cond i.flagUpdate 14 r halts s t := by
  obtain ⟨⟨hcond, hno⟩, hr⟩ := writesR14_eq_some h
  obtain ⟨hwf, hres, hopen⟩ := defined_of_r14Result hr
  obtain ⟨t, hexec⟩ := everyDefinedInstructionCompletes i s hwf hres (.inr hopen)
  obtain @⟨u, d, fl, rc, prepared, exec_eq, r14, soft⟩ := executes_of_next hcond hexec hno
  obtain ⟨rfl, rfl⟩ := Dest.eq_of_r14_eq_some (r14.symm.trans hr)
  rw [exec_eq]
  cases rc with
  | none =>
    obtain ⟨t, hfinish, hresult, -⟩ := finish_reg_spec i.cond i.flagUpdate 14 r u
    exact ⟨t, false, hfinish, hresult.of_prepared prepared⟩
  | halt =>
    obtain ⟨t, hfinish, hresult, -⟩ := finish_halt_spec i.cond hno i.flagUpdate 14 r u
    exact ⟨t, true, hfinish, hresult.of_prepared prepared⟩
  | softReset => exact absurd (msb_of_asksSoftReset (soft rfl) hr) hK

/-- Lines 7 to 9 change K by the context switch alone, a soft reset apart (40_execution_model R127, 60_exceptions R275). -/
theorem requested_of_finish_K_ne {c f d fl rc} {s t : State} (h : finish c f d fl rc s = .next t) (hK : t.K ≠ s.K)
    (hrc : rc = .softReset → s.K = .normal) : s.requested d = some t.K := by
  rcases finish_cases h with ⟨-, rfl⟩ | ⟨-, rfl⟩
  · simp at hK
  · cases hreq : s.requested d with
    | some k => simp [State.switchIf]
    | none =>
      rw [hreq] at hK
      refine absurd ?_ hK
      by_cases hsoft : rc = .softReset
      · rw [hsoft, hrc hsoft]; rfl
      · simp [State.switchIf, react_K_of_ne_softReset _ hsoft]

theorem r14_of_requested {s : State} {d : Dest} {k : Context} (h : s.requested d = some k) (fl : FlagInputs) :
    ∃ r, d.r14 fl = some r ∧ r.res.msb = k.bit := by
  cases d with
  | reg d v =>
    obtain ⟨⟨hd, -⟩, hk⟩ := Option.ite_none_right_eq_some.mp h
    obtain rfl := Option.some.inj hk
    exact ⟨⟨v, fl⟩, if_pos (Fin.ext hd), (bit_ofBit _).symm⟩
  | flagX b => cases h
  | mem a v => cases h

/-- An instruction that changes K writes to R14 a word with the new K in bit 15, a soft reset apart. -/
theorem writesR14_of_K_ne {i : Instr} {s t : State} (h : exec i s = .next t) (hK : t.K ≠ s.K)
    (hsoft : s.K = .normal ∨ asksSoftReset i s = false) : ∃ r, writesR14 i s = some r ∧ r.res.msb = t.K.bit := by
  have hcond : condHolds i.cond s.fg = true := by
    refine Bool.eq_true_of_not_eq_false fun hfails => hK ?_
    rw [Host.Outcome.next.inj (h.symm.trans (failedConditionChangesNothing i s hfails))]
  have hno : i.cond ≠ .no := fun hno => hK (noConditionWritesNoDestination i s t hno h).2.2.2.2.2.1
  obtain ⟨prepared, exec_eq, r14, soft⟩ := executes_of_next hcond h hno
  have hreq := requested_of_finish_K_ne (exec_eq.symm.trans h) (prepared.K ▸ hK) fun hrc => by
    rw [prepared.K]
    exact hsoft.resolve_right (by simp [soft hrc])
  obtain ⟨r, hr, hmsb⟩ := r14_of_requested hreq _
  exact ⟨r, (if_pos ⟨hcond, hno⟩).trans (r14.trans hr), hmsb⟩

/-- A register result in R14 leaves the other registers of the set it is written to (40_execution_model R126). -/
theorem RegResult.kept_of_r14 {c f r halts} {s t : State} (h : RegResult c f 14 r halts s t) :
    (t.regs s.K).gpr = (s.regs s.K).gpr ∧ (t.regs s.K).pc = (s.regs s.K).pc := by
  have hreg (i : Reg) (hi : i.val ≠ 14) : t.regOf s.K i = s.regOf s.K i :=
    (h.regs i hi).trans (if_neg fun h' => hi (congrArg Fin.val h'.1))
  refine ⟨Vector.ext fun n hn => ?_, ?_⟩
  · have hread := hreg ⟨n, by omega⟩ (show n ≠ 14 by omega)
    rwa [State.regOf, State.regOf, read_gpr _ _ _ _ hn, read_gpr _ _ _ _ hn] at hread
  · have hread := hreg 15 (by decide)
    rwa [State.regOf, State.regOf, read_pc _ _ _ _ rfl, read_pc _ _ _ _ rfl] at hread

/-- What an instruction leaves that writes R14 with the other K in bit 15: the set written to takes the rest of the word and
the flag update, and keeps its other registers (40_execution_model R127, R135, R136). -/
theorem exec_switches {i : Instr} {s : State} {r : Computed} {k : Context} (h : writesR14 i s = some r) (hk : k ≠ s.K)
    (hmsb : r.res.msb = k.bit) :
    ∃ t, exec i s = .next t ∧ t.K = k ∧ OtherSetKept s t ∧ (t.regs s.K).gpr = (s.regs s.K).gpr ∧
      (t.regs s.K).pc = (s.regs s.K).pc ∧ FlagsAfter s.cfg i.flagUpdate r.flags r.res (t.regOf s.K 14) := by
  have hr14 : (14 : Reg).val = 14 ∧ i.cond ≠ .no := ⟨rfl, (writesR14_eq_some h).1.2⟩
  obtain ⟨t, halts, hexec, hres⟩ := exec_of_writesR14 h fun hK => hk (context_eq_of_bit (hmsb.symm.trans hK))
  obtain ⟨hgpr, hpc⟩ := hres.kept_of_r14
  have hcontext := hres.context
  have hflags := hres.flags
  rw [if_pos hr14, hmsb, ofBit_bit] at hcontext
  rw [if_pos hr14] at hflags
  exact ⟨t, hexec, hcontext, hres.others, hgpr, hpc, hflags⟩

/-! ### Bit 15 of R14 alone -/

theorem writeFlags_congr (cfg : Config) (fg : BitVec 15) {v v' : Word} (h : v.setWidth 15 = v'.setWidth 15) :
    writeFlags cfg fg v = writeFlags cfg fg v' := by
  rw [writeFlags, writeFlags, h]

theorem setWidth_putBit_15 (v : Word) (b : Bool) : (putBit v 15 b).setWidth 15 = v.setWidth 15 := by
  refine BitVec.eq_of_getLsbD_eq fun n hn => ?_
  rw [BitVec.getLsbD_setWidth, BitVec.getLsbD_setWidth, getLsbD_putBit, if_neg (by omega)]

/-- Bit 15 of R14 is stored in no register set (10_state R24). -/
theorem writeReg_fg_putBit_15 (s : State) (b : Bool) : s.writeReg 14 (putBit (s.x 14) 15 b) = s := by
  have hwrite := congrArg (fun g => ({ s.regs s.K with fg := g } : RegSet))
    (writeFlags_congr s.cfg (s.regs s.K).fg (setWidth_putBit_15 (s.x 14) b))
  exact (congrArg (s.setRegs s.K) hwrite).trans (writeReg_fg_self s)

/-- A move of the other K to R14:15 without a flag update is the switch and nothing else (60_exceptions R267, R269). -/
theorem finishBit_switches {c : Cond} {s : State} (hcond : condHolds c s.fg = true) (hno : c ≠ .no) {k : Context}
    (hk : k ≠ s.K) : finishBit c .nf 14 15 k.bit .none s = .next (s.switchTo k) := by
  have hreq : s.requested (.reg 14 (putBit (s.x 14) 15 k.bit)) = some k := by
    rw [requested_reg, msb_putBit_15, ofBit_bit]
    exact if_pos ⟨rfl, fun h => hk (context_eq_of_bit h)⟩
  rw [finishBit, whenHolds_of_holds hcond, finish, if_neg hno]
  change Host.Outcome.next ((s.writeReg 14 (putBit (s.x 14) 15 k.bit)).switchIf
    (s.requested (.reg 14 (putBit (s.x 14) 15 k.bit)))) = _
  rw [hreq, writeReg_fg_putBit_15]
  rfl

/-- Settles O42: K changes by a write of R14 alone, and the switch clears the cause bit of the set that is entered. -/
theorem entryByProgram : Obligations.EntryByProgram := by
  refine ⟨fun i s r hK hr hmsb => ?_, fun i s t hK h ht => ?_, fun c f s hK hcond hno => ?_, by decide⟩
  · have hne : Context.interrupt ≠ s.K := by rw [hK]; decide
    obtain ⟨t, hexec, hswitch, hother, hkept⟩ := exec_switches hr hne hmsb
    rw [hK] at hkept
    refine ⟨t, hexec, hswitch, hother.gpr _ hne, hother.pc _ hne, fun n hn => ?_, hkept⟩
    exact (hother.fg _ hne n hn).trans (by simp [hswitch, State.regs])
  · have hwrites := writesR14_of_K_ne h (by rw [ht, hK]; decide) (.inl hK)
    rwa [ht] at hwrites
  · have hne : Context.interrupt ≠ s.K := by rw [hK]; decide
    have hwrites : writesR14 (.setBit c f 14 15) s = some (r14BitResult s 15 true) := if_pos ⟨hcond, hno⟩
    obtain ⟨t, hexec, hswitch, -⟩ := exec_switches hwrites hne (msb_putBit_15 ..)
    refine ⟨t, hexec, hswitch, ?_⟩
    rintro rfl
    obtain rfl := Host.Outcome.next.inj ((finishBit_switches hcond hno hne).symm.trans hexec)
    exact switchTo_normal ..

/-- Settles O43: K changes by a write of R14 or a soft reset alone, and the switch back writes no register. -/
theorem returnFromInterrupt : Obligations.ReturnFromInterrupt := by
  refine ⟨fun i s r hK hr hmsb => ?_, fun i s t hK h hsoft => ⟨?_, fun ht => ?_⟩, fun c f s hK hcond hno => ?_, by decide⟩
  · obtain ⟨t, hexec, hswitch, hother, hkept⟩ := exec_switches (k := .normal) hr (by rw [hK]; decide) hmsb
    rw [hK] at hkept
    exact ⟨t, hexec, hswitch, hother.normal_eq hK, hkept⟩
  · exact (inactiveSetIsUntouched i s t h hsoft).normal_eq hK
  · have hwrites := writesR14_of_K_ne h (by rw [ht, hK]; decide) (.inr hsoft)
    rwa [ht] at hwrites
  · have hne : Context.normal ≠ s.K := by rw [hK]; decide
    have hwrites : writesR14 (.clearBit c f 14 15) s = some (r14BitResult s 15 false) := if_pos ⟨hcond, hno⟩
    obtain ⟨t, hexec, hswitch, hother, -⟩ := exec_switches hwrites hne (msb_putBit_15 ..)
    refine ⟨t, hexec, hswitch, hother.normal_eq hK, ?_⟩
    rintro rfl
    obtain rfl := Host.Outcome.next.inj ((finishBit_switches hcond hno hne).symm.trans hexec)
    rfl

end Sys2Proof.Machine
